-- ==== Sys2Proof/Word.lean ====
section
/-! DEFINITION. The words of the hardware (spec/00_scope.md R6, R7): 64-bit memory words, 128-bit value
registers, 32-bit command words. -/

namespace Sys2Proof

/-- A machine word: 64 bits (R6, WORD). -/
abbrev Word := BitVec 64

/-- The contents of a value register: 128 bits, two words (R6, VW). -/
abbrev Value := BitVec 128

/-- A command word: 32 bits (R6, R60). -/
abbrev CmdWord := BitVec 32

end Sys2Proof
end

