-- ==== Sys2Proof/Syntax.lean ====
section
/-! DEFINITION. The nine commands (spec/30_encoding.md R65), their type field and register fields, and the
names of the five faults (60_exceptions.md R162). -/

namespace Sys2Proof

/-- A value register's number, V0 to V15 (R21, R61). -/
abbrev Reg := Fin 16

/-- The type (W, S) of a command (R10, R63): signed is S = 1, width is W = WM1 + 1. -/
structure Ty where
  signed : Bool
  width  : Nat
deriving DecidableEq, Repr

/-- One constructor per row of the opcode table. Operands stand in the order of the fields RD, RA, RB
(R61); `stf`'s first register is read, not written. -/
inductive Instr where
  | norm (ty : Ty) (rd ra : Reg)
  | ldf  (ty : Ty) (rd ra rb : Reg)
  | stf  (ty : Ty) (rs ra rb : Reg)
  | add  (ty : Ty) (rd ra rb : Reg)
  | sub  (ty : Ty) (rd ra rb : Reg)
  | cmp  (ty : Ty) (rd ra rb : Reg)
  | shl  (ty : Ty) (rd ra rb : Reg)
  | shr  (ty : Ty) (rd ra rb : Reg)
  | shrz (ty : Ty) (rd ra rb : Reg)
deriving DecidableEq, Repr

/-- The causes of a fault (R162). The first three are found at decode, the last two at execution. -/
inductive FaultCode where
  | illegalOpcode
  | reservedField
  | illegalWidth
  | badOffset
  | badIndex
deriving DecidableEq, Repr

end Sys2Proof
end

