-- ==== Sys2Proof/WellFormed.lean ====
section
/-! DEFINITION. The commands the encoding admits: those with a width legal for them
(spec/30_encoding.md R62, 60_exceptions.md R166). -/

namespace Sys2Proof

/-- The legal widths of NORM, ADD, SUB, CMP and the shifts: 1 to 64, and 128 (R62). -/
def Ty.legalValue (t : Ty) : Bool := decide (1 ≤ t.width) && decide (t.width ≤ 64) || decide (t.width = 128)

/-- The legal widths of LDF and STF: 1 to 64 (R62). -/
def Ty.legalField (t : Ty) : Bool := decide (1 ≤ t.width) && decide (t.width ≤ 64)

/-- A command whose width is legal for its operation (R62). Register numbers are always legal (R61). -/
def Instr.wellFormed : Instr → Bool
  | .norm ty _ _   => ty.legalValue
  | .ldf ty _ _ _  => ty.legalField
  | .stf ty _ _ _  => ty.legalField
  | .add ty _ _ _  => ty.legalValue
  | .sub ty _ _ _  => ty.legalValue
  | .cmp ty _ _ _  => ty.legalValue
  | .shl ty _ _ _  => ty.legalValue
  | .shr ty _ _ _  => ty.legalValue
  | .shrz ty _ _ _ => ty.legalValue

end Sys2Proof
end

