-- ==== Sys2Proof/Decode.lean ====
section
/-! DEFINITION. Decoding a 32-bit command word (spec/30_encoding.md R60 to R67), total and rejecting by fault
code; then the encoder, written from the same table; the pseudo-instructions (R69) and the assembler text
(R68). -/

namespace Sys2Proof

/-- Bits hi down to lo of a command word, as an unsigned number (R7). -/
def bits (w : CmdWord) (hi lo : Nat) : Nat := w.toNat / 2 ^ lo % 2 ^ (hi + 1 - lo)

/-- The number of a fault in STATUS.FCODE (60_exceptions.md R162). -/
def FaultCode.num : FaultCode → BitVec 4
  | .illegalOpcode => 1
  | .reservedField => 2
  | .illegalWidth  => 3
  | .badOffset     => 4
  | .badIndex      => 5

/-- The opcode map (R65): the command that an OP value names, with the other fields as its operands. -/
def opcodeMap (op : Nat) (ty : Ty) (rd ra rb : Reg) : Option Instr :=
  match op with
  | 1 => some (.norm ty rd ra)
  | 2 => some (.ldf ty rd ra rb)
  | 3 => some (.stf ty rd ra rb)
  | 4 => some (.add ty rd ra rb)
  | 5 => some (.sub ty rd ra rb)
  | 6 => some (.cmp ty rd ra rb)
  | 7 => some (.shl ty rd ra rb)
  | 8 => some (.shr ty rd ra rb)
  | 9 => some (.shrz ty rd ra rb)
  | _ => none

/-- The type that the S and WM1 fields select (R62, R63): W = WM1 + 1. -/
def tyOf (w : CmdWord) : Ty := { signed := decide (bits w 27 27 = 1), width := bits w 26 20 + 1 }

/-- The fields that must be 0 hold something else (R66 step 2): Z, and RB when OP is NORM. -/
def reservedSet (w : CmdWord) : Bool :=
  decide (bits w 7 0 ≠ 0) || (decide (bits w 31 28 = 1) && decide (bits w 11 8 ≠ 0))

/-- Decoding (R66): the conditions in the spec's order, the first that holds deciding. -/
def decode (w : CmdWord) : Except FaultCode Instr :=
  match opcodeMap (bits w 31 28) (tyOf w) (Fin.ofNat 16 (bits w 19 16)) (Fin.ofNat 16 (bits w 15 12))
      (Fin.ofNat 16 (bits w 11 8)) with
  | none => .error .illegalOpcode
  | some i =>
    if reservedSet w then .error .reservedField
    else if i.wellFormed then .ok i
    else .error .illegalWidth

/-- The OP field of a command (R65). -/
def Instr.op : Instr → Nat
  | .norm .. => 1
  | .ldf ..  => 2
  | .stf ..  => 3
  | .add ..  => 4
  | .sub ..  => 5
  | .cmp ..  => 6
  | .shl ..  => 7
  | .shr ..  => 8
  | .shrz .. => 9

/-- The type of a command (R63). -/
def Instr.ty : Instr → Ty
  | .norm ty _ _   => ty
  | .ldf ty _ _ _  => ty
  | .stf ty _ _ _  => ty
  | .add ty _ _ _  => ty
  | .sub ty _ _ _  => ty
  | .cmp ty _ _ _  => ty
  | .shl ty _ _ _  => ty
  | .shr ty _ _ _  => ty
  | .shrz ty _ _ _ => ty

/-- The register numbers in the RD, RA and RB fields; NORM's RB field is 0 (R61). -/
def Instr.regFields : Instr → Reg × Reg × Reg
  | .norm _ rd ra    => (rd, ra, 0)
  | .ldf _ rd ra rb  => (rd, ra, rb)
  | .stf _ rs ra rb  => (rs, ra, rb)
  | .add _ rd ra rb  => (rd, ra, rb)
  | .sub _ rd ra rb  => (rd, ra, rb)
  | .cmp _ rd ra rb  => (rd, ra, rb)
  | .shl _ rd ra rb  => (rd, ra, rb)
  | .shr _ rd ra rb  => (rd, ra, rb)
  | .shrz _ rd ra rb => (rd, ra, rb)

/-- The command word of a well-formed command (R60): OP*2^28 + S*2^27 + WM1*2^20 + RD*2^16 + RA*2^12 +
RB*2^8, with Z = 0. -/
def encode (i : Instr) : CmdWord :=
  BitVec.ofNat 32 (2 ^ 28 * i.op + 2 ^ 27 * i.ty.signed.toNat + 2 ^ 20 * (i.ty.width - 1)
    + 2 ^ 16 * i.regFields.1.val + 2 ^ 12 * i.regFields.2.1.val + 2 ^ 8 * i.regFields.2.2.val)

/-- The instruction the decoder reads from a word numbered as the opcode table numbers it. The table's
numbering is R60's own, and the word arrives whole: no byte order applies to it. -/
def decodeTableWord (nbits w : Nat) : Option Instr :=
  match decode (BitVec.ofNat 32 (w % 2 ^ nbits)) with
  | .ok i => some i
  | .error _ => none

/-- MOV vD, vA (R69): copy all 128 bits. -/
def pseudoMov (rd ra : Reg) : Instr := .norm ⟨false, 128⟩ rd ra

/-- SEXT.W vD, vA (R69). -/
def pseudoSext (W : Nat) (rd ra : Reg) : Instr := .norm ⟨true, W⟩ rd ra

/-- ZEXT.W vD, vA (R69). -/
def pseudoZext (W : Nat) (rd ra : Reg) : Instr := .norm ⟨false, W⟩ rd ra

/-- SUCC.t vD, vA, vOne (R69): successor when vOne holds 1. -/
def pseudoSucc (ty : Ty) (rd ra one : Reg) : Instr := .add ty rd ra one

/-- PRED.t vD, vA, vOne (R69): predecessor when vOne holds 1. -/
def pseudoPred (ty : Ty) (rd ra one : Reg) : Instr := .sub ty rd ra one

/-- The mnemonic of a command (R65). -/
def Instr.mnemonic : Instr → String
  | .norm .. => "NORM"
  | .ldf ..  => "LDF"
  | .stf ..  => "STF"
  | .add ..  => "ADD"
  | .sub ..  => "SUB"
  | .cmp ..  => "CMP"
  | .shl ..  => "SHL"
  | .shr ..  => "SHR"
  | .shrz .. => "SHRZ"

/-- A register's name in the assembler (R68). -/
def regText (r : Reg) : String := "v" ++ toString r.val

/-- The type part of a mnemonic (R68): s or u, then W in decimal. -/
def Ty.text (t : Ty) : String := (if t.signed then "s" else "u") ++ toString t.width

/-- The assembler text of a command (R68): NORM has two registers, the others three. -/
def Instr.text (i : Instr) : String :=
  let (rd, ra, rb) := i.regFields
  i.mnemonic ++ "." ++ i.ty.text ++ " " ++ regText rd ++ ", " ++ regText ra ++
    (if i.op = 1 then "" else ", " ++ regText rb)

end Sys2Proof
end

