-- ==== Sys2Proof/Config.lean ====
section
/-! DEFINITION. What an implementation fixes, and the free value of the model. -/

namespace Sys2Proof.Config

/-- The least number of words memory M may have (spec/20_memory.md R40: "at least 2"). -/
def minWords : Nat := 2

/-- NWORDS of `State.reset`. DESIGN CHOICE (log 3): the spec leaves NWORDS open; 4 is the value of its own
vectors (95_test_vectors.md). NWORDS is a field of the memory, so a statement about every state covers
every value of it. -/
def resetWords : Nat := 4

/-- FREE VALUE (log 4): what a word of M holds until something writes it: "some 64-bit value, the same on
every read until the word is written. No claim may rely on that value" (70_reset_and_hazards.md R182). -/
opaque initialWord : Nat → Word

end Sys2Proof.Config
end

