-- ==== Sys2Proof/Machine/State.lean ====
section
/-! DEFINITION. The state of the unit (spec/10_state.md), the host's port, and the reasons a step can stop. -/

namespace Sys2Proof.Machine

/-- The reasons the machine could stop by itself: none. A fault of the spec (R162) is no stop: fault entry
(R163) is a next state, in which the host's transactions go on (R168). Nobody raises this; safe (log 9). -/
inductive Fault where
deriving DecidableEq, Repr

/-- The reasons a step has no meaning. -/
inductive Refusal where
  /-- Raised by `exec`'s arm of an instruction without a meaning; no arm of this model does. Safe. -/
  | notModelled (mnemonic : String)
  /-- Raised by H_RDM and H_WRM with a word index at or above NWORDS: "the model refuses such a
  transaction" (R27, 93 I16). Safe (log 7). -/
  | hostIndexOutOfRange (index : Nat)
deriving DecidableEq, Repr

/-- The stored fields of STATUS (R25). Bits 3:2 and 31:8 are hard-wired 0 and so not stored (log 8). -/
structure Status where
  c     : Bool
  f     : Bool
  fcode : BitVec 4
deriving DecidableEq, Repr

/-- Memory M (R29, R40): NWORDS words of 64 bits, addressed by word index. `cells` lists the words that
something has written, by rising index; a word that is not listed holds `Config.initialWord` (log 4, log 5). -/
structure Memory where
  nwords : Nat
  cells  : List (Nat × Word)
deriving DecidableEq, Repr

/-- The host's transactions (R27). A register number above 15 cannot be written down. -/
inductive HostTxn where
  | issue (c : CmdWord)
  | rdv (i : Reg)
  | wrv (i : Reg) (x : Value)
  | rdm (j : Nat)
  | wrm (j : Nat) (w : Word)
  | rdstatus
  | rdfcmd
  | clear
  | reset
deriving DecidableEq, Repr

/-- The results of the host's transactions (R27, the column "result"). -/
inductive HostReply where
  | accepted
  | rejected
  | value (x : Value)
  | word (w : Word)
  | status (x : BitVec 32)
  | fcmd (c : CmdWord)
deriving DecidableEq, Repr

/-- Everything the spec gives the machine, and the host's port. -/
structure State where
  /-- V0 to V15 (R21). -/
  v      : Vector Value 16
  /-- STATUS (R25). -/
  status : Status
  /-- FCMD (R26). -/
  fcmd   : CmdWord
  /-- M (R29). -/
  mem    : Memory
  /-- The host's transactions still to come, oldest first (R24, R48); the model's own field (log 1). -/
  port   : List HostTxn
  /-- The result of the last transaction, none where it has no result (R27); the model's own field (log 2). -/
  reply  : Option HostReply
deriving DecidableEq, Repr

/-- STATUS after reset (R31). -/
def Status.zero : Status := { c := false, f := false, fcode := 0 }

/-- The machine right after reset (R31, R180): registers, STATUS and FCMD are 0; no word of M is written
(R182). NWORDS is `Config.resetWords` (log 3), and the host has nothing in its port (log 1). -/
def State.reset : State where
  v := Vector.replicate 16 0
  status := Status.zero
  fcmd := 0
  mem := { nwords := Config.resetWords, cells := [] }
  port := []
  reply := none

end Sys2Proof.Machine
end

