-- ==== Sys2Proof/Machine/Ops.lean ====
section
/-! DEFINITION. The named operations over registers and memory, fault entry, and the ways out of a fault. -/

namespace Sys2Proof.Machine

/-- Read value register i, all 128 bits (spec/00_scope.md R9). -/
def State.readV (s : State) (i : Reg) : Value := s.v[i.val]

/-- Write value register i (R9). No register is hard-wired (R21). -/
def State.writeV (s : State) (i : Reg) (x : Value) : State := { s with v := s.v.set i.val x i.isLt }

/-- Write STATUS.C (R25). -/
def State.writeC (s : State) (c : Bool) : State := { s with status := { s.status with c := c } }

/-- The word listed at index j, if any. -/
def lookupCell (j : Nat) : List (Nat × Word) → Option Word
  | [] => none
  | (k, w) :: rest => if k = j then some w else lookupCell j rest

/-- List word w at index j, keeping the indices strictly rising. -/
def insertCell (j : Nat) (w : Word) : List (Nat × Word) → List (Nat × Word)
  | [] => [(j, w)]
  | (k, x) :: rest =>
    if j < k then (j, w) :: (k, x) :: rest
    else if j = k then (j, w) :: rest
    else (k, x) :: insertCell j w rest

/-- The indices are strictly rising, all at least lo and below hi. -/
def cellsRising (lo hi : Nat) : List (Nat × Word) → Bool
  | [] => true
  | (k, _) :: rest => decide (lo ≤ k) && decide (k < hi) && cellsRising (k + 1) hi rest

/-- What an unlisted word of M reads as: the free value of R182 (log 4). -/
def unwrittenWord (j : Nat) : Word := Config.initialWord j

/-- Read word j of M (R9, R40). -/
def Memory.read (m : Memory) (j : Nat) : Word := (lookupCell j m.cells).getD (unwrittenWord j)

/-- Write word j of M (R9, R40). -/
def Memory.write (m : Memory) (j : Nat) (w : Word) : Memory := { m with cells := insertCell j w m.cells }

/-- The canonical form of a memory: at least two words (R40), the listed indices strictly rising and all in
M. A listed word is one that has been written, so there is no second condition on its contents (log 5). -/
def Memory.wf (m : Memory) : Bool := decide (Config.minWords ≤ m.nwords) && cellsRising 0 m.nwords m.cells

/-- Stream bit p of M (20_memory.md R41): bit p mod 64 of word p div 64. -/
def Memory.streamBit (m : Memory) (p : Nat) : Bool := (m.read (p / 64)).getLsbD (p % 64)

/-- Fault entry (60_exceptions.md R163): F, FCODE and FCMD are written, and nothing else (R164). -/
def State.takeFault (s : State) (code : FaultCode) (c : CmdWord) : State :=
  { s with status := { s.status with f := true, fcode := code.num }, fcmd := c }

/-- H_CLEAR, the way out of the halted state (R169): F, FCODE and FCMD are 0; V, M and C are kept. -/
def State.clearFault (s : State) : State :=
  { s with status := { s.status with f := false, fcode := 0 }, fcmd := 0 }

/-- H_RESET (70_reset_and_hazards.md R180): every register and field at its reset value; M is not changed. -/
def State.resetUnit (s : State) : State :=
  { s with v := Vector.replicate 16 0, status := Status.zero, fcmd := 0 }

/-- The output signal fault_o (10_state.md R28): it equals STATUS.F at every moment. -/
def State.faultO (s : State) : Bool := s.status.f

end Sys2Proof.Machine
end

