-- ==== Sys2Proof/Machine/Operands.lean ====
section
/-! DEFINITION. Operand reading and result writing at a type (spec/00_scope.md R8 to R10, 10_state.md R22, R23,
40_normalize.md R80), and the operands that are no values (30_encoding.md R64). Arithmetic is on unbounded
integers, as the spec's pseudocode has it (R8). -/

namespace Sys2Proof

/-- 2^W as an integer. -/
def twoPow (W : Nat) : Int := ((2 ^ W : Nat) : Int)

/-- The W-bit pattern of an integer (R9): x mod 2^W, in [0, 2^W) also for negative x (R8). -/
def pattern (W : Nat) (x : Int) : Int := x % twoPow W

/-- The integer that a W-bit pattern encodes at type (W, S) (R9). -/
def valueOf (ty : Ty) (p : Int) : Int :=
  if ty.signed ∧ twoPow (ty.width - 1) ≤ p then p - twoPow ty.width else p

/-- Range-centering, the normaliser's function (R80). -/
def norm (ty : Ty) (raw : Int) : Int := valueOf ty (pattern ty.width raw)

/-- The canonical 128-bit register pattern of an integer at a type (R9, R22). -/
def canon (ty : Ty) (x : Int) : Value := BitVec.ofInt 128 (norm ty x)

/-- The value of a 128-bit register pattern as an operand at a type (R9, R23): only its low W bits count. -/
def opnd (ty : Ty) (x : Value) : Int := norm ty (x.toNat : Int)

/-- The least value of a type (R10). -/
def Ty.minVal (ty : Ty) : Int := if ty.signed then -twoPow (ty.width - 1) else 0

/-- The greatest value of a type (R10). -/
def Ty.maxVal (ty : Ty) : Int := if ty.signed then twoPow (ty.width - 1) - 1 else twoPow ty.width - 1

/-- V[i].lo, bits 63:0 (R7). -/
def Value.lo (x : Value) : Word := x.extractLsb' 0 64

/-- V[i].hi, bits 127:64 (R7). -/
def Value.hi (x : Value) : Word := x.extractLsb' 64 64

/-- The 128-bit value with high word h and low word l (R7). -/
def joinWords (h l : Word) : Value := h ++ l

/-- mask(n) = 2^n - 1 as a 64-bit word, for n up to 64 (R8). -/
def mask (n : Nat) : Word := BitVec.ofNat 64 (2 ^ n - 1)

/-- A shift count: V[RB][31:0] as a signed 32-bit integer (R64). -/
def shiftCount (x : Value) : Int := valueOf ⟨true, 32⟩ (pattern 32 (x.toNat : Int))

/-- A word index: V[RA][63:0] as an unsigned integer (R64). -/
def wordIndex (x : Value) : Nat := x.toNat % 2 ^ 64

/-- A bit offset: V[RB][63:0] as an unsigned integer (R64). -/
def bitOffset (x : Value) : Nat := x.toNat % 2 ^ 64

end Sys2Proof
end

