-- ==== Sys2Proof/Machine/Flags.lean ====
section
/-! DEFINITION. The carry and borrow of the low word (spec/42_add_sub.md R111, R114) and the STATUS word
(10_state.md R25). -/

namespace Sys2Proof.Machine

/-- Bits 62:0 of a word, the 63-bit magnitude of R111, as a 64-bit word. -/
def low63 (x : Word) : Word := x &&& mask 63

/-- Carry out of x + y by the spec's case split (R111): both top bits set, exactly one, or none. -/
def carry64 (x y : Word) : Bool :=
  if x.getLsbD 63 && y.getLsbD 63 then true
  else if x.getLsbD 63 != y.getLsbD 63 then (low63 x + low63 y).getLsbD 63
  else false

/-- Borrow out of x - y by the mirrored case split (R114). -/
def borrow64 (x y : Word) : Bool :=
  if !x.getLsbD 63 && y.getLsbD 63 then true
  else if x.getLsbD 63 && !y.getLsbD 63 then false
  else (low63 x).ult (low63 y)

/-- The 32-bit STATUS word (R25): C bit 0, F bit 1, FCODE bits 7:4, the rest hard-wired 0. -/
def Status.word (st : Status) : BitVec 32 :=
  BitVec.ofNat 32 (st.c.toNat + 2 * st.f.toNat + 16 * st.fcode.toNat)

/-- The STATUS contents the spec allows (R25): FCODE is 0 when F = 0, and one of 1 to 5 when F = 1. -/
def Status.legal (st : Status) : Bool :=
  if st.f then decide (1 ≤ st.fcode.toNat) && decide (st.fcode.toNat ≤ 5) else decide (st.fcode = 0)

end Sys2Proof.Machine
end

