-- ==== Sys2Proof/Machine/AddSub.lean ====
section
/-! DEFINITION. wide_adder and wide_subtractor: ADD and SUB (spec/42_add_sub.md). -/

namespace Sys2Proof.Machine

/-- The sum and STATUS.C of ADD (R112): the two-word kernel at W = 128, one word otherwise. -/
def addValues (ty : Ty) (x y : Value) : Value × Bool :=
  if ty.width = 128 then
    let c := carry64 x.lo y.lo
    (joinWords (x.hi + y.hi + BitVec.ofNat 64 c.toNat) (x.lo + y.lo), c)
  else (canon ty (opnd ty x + opnd ty y), false)

/-- The difference and STATUS.C of SUB (R115, R116). -/
def subValues (ty : Ty) (x y : Value) : Value × Bool :=
  if ty.width = 128 then
    let br := borrow64 x.lo y.lo
    (joinWords (x.hi - y.hi - BitVec.ofNat 64 br.toNat) (x.lo - y.lo), br)
  else (canon ty (opnd ty x - opnd ty y), false)

/-- ADD (R112): V[RD] and STATUS.C. -/
def execAdd (ty : Ty) (rd ra rb : Reg) (s : State) : Host.Outcome State Fault Refusal :=
  let r := addValues ty (s.readV ra) (s.readV rb)
  .next ((s.writeV rd r.1).writeC r.2)

/-- SUB (R116): V[RD] and STATUS.C. -/
def execSub (ty : Ty) (rd ra rb : Reg) (s : State) : Host.Outcome State Fault Refusal :=
  let r := subValues ty (s.readV ra) (s.readV rb)
  .next ((s.writeV rd r.1).writeC r.2)

end Sys2Proof.Machine
end

