-- ==== Sys2Proof/Machine/Codec.lean ====
section
/-! DEFINITION. bit_packing_codec: LDF and STF (spec/41_codec.md). -/

namespace Sys2Proof.Machine

/-- The field's bits in word i (R90). -/
def fieldLow (W off : Nat) : Nat := min W (64 - off)

/-- The field's bits in word i + 1, 0 if none (R90). -/
def fieldHigh (W off : Nat) : Nat := W - fieldLow W off

/-- The checks of LDF and STF before M is touched, in the spec's order (R90). The index is unbounded, so
i + 1 does not wrap. -/
def fieldFault (m : Memory) (W i off : Nat) : Option FaultCode :=
  if 63 < off then some .badOffset
  else if m.nwords ≤ i then some .badIndex
  else if 0 < fieldHigh W off ∧ m.nwords ≤ i + 1 then some .badIndex
  else none

/-- The raw W-bit pattern of the field at (i, off) (R92). -/
def readField (m : Memory) (W i off : Nat) : Word :=
  if fieldHigh W off = 0 then (m.read i >>> off) &&& mask W
  else (m.read i >>> off) ||| ((m.read (i + 1) &&& mask (fieldHigh W off)) <<< fieldLow W off)

/-- M with the W-bit pattern p in the field at (i, off), every other bit kept (R94). Both words are computed
from the memory before the command. -/
def writeField (m : Memory) (W i off : Nat) (p : Word) : Memory :=
  if fieldHigh W off = 0 then m.write i ((m.read i &&& ~~~(mask W <<< off)) ||| (p <<< off))
  else
    (m.write i ((m.read i &&& mask off) ||| ((p &&& mask (fieldLow W off)) <<< off))).write (i + 1)
      ((m.read (i + 1) &&& ~~~(mask (fieldHigh W off))) ||| (p >>> fieldLow W off))

/-- The low W bits of a register, as the word STF stores (R94): p = V[RD] mod 2^W. -/
def storedPattern (W : Nat) (x : Value) : Word := BitVec.ofNat 64 (x.toNat % 2 ^ W)

/-- LDF (R92): the field at (V[RA], V[RB]), normalised, to V[RD]. -/
def execLdf (ty : Ty) (rd ra rb : Reg) (s : State) : Host.Outcome State Fault Refusal :=
  match fieldFault s.mem ty.width (wordIndex (s.readV ra)) (bitOffset (s.readV rb)) with
  | some code => .next (s.takeFault code (encode (.ldf ty rd ra rb)))
  | none =>
    .next (s.writeV rd (canon ty
      ((readField s.mem ty.width (wordIndex (s.readV ra)) (bitOffset (s.readV rb))).toNat : Int)))

/-- STF (R94): the low W bits of V[RS] into the field at (V[RA], V[RB]). No register is written. -/
def execStf (ty : Ty) (rs ra rb : Reg) (s : State) : Host.Outcome State Fault Refusal :=
  match fieldFault s.mem ty.width (wordIndex (s.readV ra)) (bitOffset (s.readV rb)) with
  | some code => .next (s.takeFault code (encode (.stf ty rs ra rb)))
  | none =>
    .next { s with mem := writeField s.mem ty.width (wordIndex (s.readV ra)) (bitOffset (s.readV rb))
                            (storedPattern ty.width (s.readV rs)) }

end Sys2Proof.Machine
end

