-- ==== Sys2Proof/Machine/Compare.lean ====
section
/-! DEFINITION. wide_comparator: CMP and the predicates read from its result (spec/43_compare.md). -/

namespace Sys2Proof.Machine

/-- The two-word compare at S = 1 (R132): sign bit, then the 63 magnitude bits, then the low word
unsigned (90_conflicts.md C1). -/
def cmpWideSigned (x y : Value) : Int :=
  if x.hi.getLsbD 63 != y.hi.getLsbD 63 then (if x.hi.getLsbD 63 then -1 else 1)
  else if low63 x.hi ≠ low63 y.hi then (if (low63 x.hi).ult (low63 y.hi) then -1 else 1)
  else if x.lo ≠ y.lo then (if x.lo.ult y.lo then -1 else 1)
  else 0

/-- The two-word compare at S = 0 (R132). -/
def cmpWideUnsigned (x y : Value) : Int :=
  if x.hi ≠ y.hi then (if x.hi.ult y.hi then -1 else 1)
  else if x.lo ≠ y.lo then (if x.lo.ult y.lo then -1 else 1)
  else 0

/-- CMP's result r: -1, 0 or 1 (R130, R132). -/
def compareValues (ty : Ty) (x y : Value) : Int :=
  if ty.width = 128 then (if ty.signed then cmpWideSigned x y else cmpWideUnsigned x y)
  else if opnd ty x < opnd ty y then -1
  else if opnd ty x = opnd ty y then 0
  else 1

/-- CMP (R131, R132): V[RD] <- r mod 2^128, not normalised to the type. No flag is written. -/
def execCmp (ty : Ty) (rd ra rb : Reg) (s : State) : Host.Outcome State Fault Refusal :=
  .next (s.writeV rd (BitVec.ofInt 128 (compareValues ty (s.readV ra) (s.readV rb))))

/-- isLess, read from CMP's result (R134). -/
def isLess (r : Int) : Bool := decide (r = -1)

/-- isLessEqual (R134). -/
def isLessEqual (r : Int) : Bool := decide (r ≠ 1)

/-- isGreater (R134). -/
def isGreater (r : Int) : Bool := decide (r = 1)

/-- isGreaterEqual (R134). -/
def isGreaterEqual (r : Int) : Bool := decide (r ≠ -1)

/-- isEqual (R134). -/
def isEqual (r : Int) : Bool := decide (r = 0)

/-- isNotEqual (R134). -/
def isNotEqual (r : Int) : Bool := decide (r ≠ 0)

/-- signum(a): CMP of a against a register that holds 0 (R134). -/
def signum (ty : Ty) (x : Value) : Int := compareValues ty x 0

end Sys2Proof.Machine
end

