-- ==== Sys2Proof/Machine/Normalize.lean ====
section
/-! DEFINITION. twos_complement_normalizer: NORM (spec/40_normalize.md). -/

namespace Sys2Proof.Machine

/-- NORM (R81): the pattern in RA, normalised to the command's type. No flag is written. -/
def execNorm (ty : Ty) (rd ra : Reg) (s : State) : Host.Outcome State Fault Refusal :=
  .next (s.writeV rd (canon ty ((s.readV ra).toNat : Int)))

end Sys2Proof.Machine
end

