-- ==== Sys2Proof/Machine/Shift.lean ====
section
/-! DEFINITION. bit_shifter: SHL, SHR and SHRZ (spec/44_shift.md). -/

namespace Sys2Proof.Machine

/-- The directions of R140: left, sign-extending right, fill-zero right. -/
inductive ShiftDir where
  | left
  | right
  | zero
deriving DecidableEq, Repr

/-- The direction and amount of a count (R140): redirect to the mirror for a negative count, then take the
count modulo W. The two directions are the command's own and its mirror. -/
def resolveCount (own mirror : ShiftDir) (W : Nat) (c : Int) : ShiftDir × Nat :=
  if 0 ≤ c then (own, (c % (W : Int)).toNat) else (mirror, ((-c) % (W : Int)).toNat)

/-- Bit i of a word, moved to bit j. -/
def moveBit (x : Word) (i j : Nat) : Word := BitVec.ofNat 64 ((x.getLsbD i).toNat * 2 ^ j)

/-- The single-bit left shift of two words (R141). -/
def shl1 (x : Value) : Value := joinWords ((x.hi <<< 1) ||| moveBit x.lo 63 0) (x.lo <<< 1)

/-- The single-bit arithmetic right shift of two words (R141). -/
def sar1 (x : Value) : Value :=
  joinWords ((x.hi >>> 1) ||| moveBit x.hi 63 63) ((x.lo >>> 1) ||| moveBit x.hi 0 63)

/-- The single-bit fill-zero right shift of two words (R141). -/
def shr1z (x : Value) : Value := joinWords (x.hi >>> 1) ((x.lo >>> 1) ||| moveBit x.hi 0 63)

/-- One single-bit step in a direction at W = 128 (R142): right is fill-zero when S = 0. -/
def shiftStep (signed : Bool) : ShiftDir → Value → Value
  | .left  => shl1
  | .right => if signed then sar1 else shr1z
  | .zero  => shr1z

/-- A shift by k at W = 128: the single-bit step of its direction, k times (R142). -/
def shiftWide (signed : Bool) (dir : ShiftDir) (k : Nat) (x : Value) : Value := (shiftStep signed dir)^[k] x

/-- A shift by k by the formulas of R143, normative at W ≤ 64. -/
def shiftFormula (ty : Ty) (dir : ShiftDir) (k : Nat) (x : Value) : Value :=
  match dir with
  | .left  => canon ty (opnd ty x * twoPow k)
  | .right =>
    if ty.signed then canon ty (opnd ty x / twoPow k)
    else canon ty (pattern ty.width (x.toNat : Int) / twoPow k)
  | .zero  => canon ty (pattern ty.width (x.toNat : Int) / twoPow k)

/-- shift(dir, k, x) at a type (R142 at W = 128, R143 otherwise). -/
def shiftValue (ty : Ty) (d : ShiftDir × Nat) (x : Value) : Value :=
  if ty.width = 128 then shiftWide ty.signed d.1 d.2 x else shiftFormula ty d.1 d.2 x

/-- SHL (R144): left, its mirror the sign-extending right shift. -/
def execShl (ty : Ty) (rd ra rb : Reg) (s : State) : Host.Outcome State Fault Refusal :=
  .next (s.writeV rd (shiftValue ty (resolveCount .left .right ty.width (shiftCount (s.readV rb))) (s.readV ra)))

/-- SHR (R145): right, its mirror the left shift. -/
def execShr (ty : Ty) (rd ra rb : Reg) (s : State) : Host.Outcome State Fault Refusal :=
  .next (s.writeV rd (shiftValue ty (resolveCount .right .left ty.width (shiftCount (s.readV rb))) (s.readV ra)))

/-- SHRZ (R146): fill-zero right, its mirror the left shift. -/
def execShrz (ty : Ty) (rd ra rb : Reg) (s : State) : Host.Outcome State Fault Refusal :=
  .next (s.writeV rd (shiftValue ty (resolveCount .zero .left ty.width (shiftCount (s.readV rb))) (s.readV ra)))

end Sys2Proof.Machine
end

