-- ==== Sys2Proof/Machine/Dispatch.lean ====
section
/-! DEFINITION. One arm per command, each one direct call of its meaning. -/

namespace Sys2Proof.Machine

def exec (i : Instr) (s : State) : Host.Outcome State Fault Refusal :=
  match i with
  | .norm ty rd ra => Sys2Proof.Machine.execNorm ty rd ra s
  | .ldf ty rd ra rb => Sys2Proof.Machine.execLdf ty rd ra rb s
  | .stf ty rs ra rb => Sys2Proof.Machine.execStf ty rs ra rb s
  | .add ty rd ra rb => Sys2Proof.Machine.execAdd ty rd ra rb s
  | .sub ty rd ra rb => Sys2Proof.Machine.execSub ty rd ra rb s
  | .cmp ty rd ra rb => Sys2Proof.Machine.execCmp ty rd ra rb s
  | .shl ty rd ra rb => Sys2Proof.Machine.execShl ty rd ra rb s
  | .shr ty rd ra rb => Sys2Proof.Machine.execShr ty rd ra rb s
  | .shrz ty rd ra rb => Sys2Proof.Machine.execShrz ty rd ra rb s

end Sys2Proof.Machine
end

