-- ==== Sys2Proof/Machine/HostPort.lean ====
section
/-! DEFINITION. The host's transactions (spec/10_state.md R27), each one atomic step (R48), and the run of a
program (70_reset_and_hazards.md R185). -/

namespace Sys2Proof.Machine

/-- Answer the host (R27, the column "result"). -/
def State.answer (s : State) (r : Option HostReply) : State := { s with reply := r }

/-- Execute a command word on a unit that is not halted: the command it decodes to, or fault entry with the
decoder's code (30_encoding.md R66, 60_exceptions.md R163). -/
def executeWord (c : CmdWord) (s : State) : Host.Outcome State Fault Refusal :=
  match decode c with
  | .ok i => exec i s
  | .error code => .next (s.takeFault code c)

/-- H_ISSUE (R27, R168): rejected and without effect while STATUS.F = 1; else accepted and executed. -/
def hIssue (c : CmdWord) (s : State) : Host.Outcome State Fault Refusal :=
  if s.status.f then .next (s.answer (some .rejected))
  else executeWord c (s.answer (some .accepted))

/-- H_RDV (R27). -/
def hRdv (i : Reg) (s : State) : Host.Outcome State Fault Refusal :=
  .next (s.answer (some (.value (s.readV i))))

/-- H_WRV (R27): the pattern need not be canonical. -/
def hWrv (i : Reg) (x : Value) (s : State) : Host.Outcome State Fault Refusal :=
  .next ((s.writeV i x).answer none)

/-- H_RDM (R27): refused at or above NWORDS (93 I16). -/
def hRdm (j : Nat) (s : State) : Host.Outcome State Fault Refusal :=
  if j < s.mem.nwords then .next (s.answer (some (.word (s.mem.read j)))) else .refused (.hostIndexOutOfRange j)

/-- H_WRM (R27): refused at or above NWORDS (93 I16). -/
def hWrm (j : Nat) (w : Word) (s : State) : Host.Outcome State Fault Refusal :=
  if j < s.mem.nwords then .next ({ s with mem := s.mem.write j w }.answer none)
  else .refused (.hostIndexOutOfRange j)

/-- H_RDSTATUS (R27). -/
def hRdstatus (s : State) : Host.Outcome State Fault Refusal := .next (s.answer (some (.status s.status.word)))

/-- H_RDFCMD (R27). -/
def hRdfcmd (s : State) : Host.Outcome State Fault Refusal := .next (s.answer (some (.fcmd s.fcmd)))

/-- H_CLEAR (R27, R169). -/
def hClear (s : State) : Host.Outcome State Fault Refusal := .next (s.clearFault.answer none)

/-- H_RESET (R27, R180). -/
def hReset (s : State) : Host.Outcome State Fault Refusal := .next (s.resetUnit.answer none)

/-- One transaction of the host (R27). -/
def transact (t : HostTxn) (s : State) : Host.Outcome State Fault Refusal :=
  match t with
  | .issue c => hIssue c s
  | .rdv i => hRdv i s
  | .wrv i x => hWrv i x s
  | .rdm j => hRdm j s
  | .wrm j w => hWrm j w s
  | .rdstatus => hRdstatus s
  | .rdfcmd => hRdfcmd s
  | .clear => hClear s
  | .reset => hReset s

/-- The next transaction at the port, or, with none, an idle step: "Between commands it is idle, and all its
state is held" (R176, log 6). -/
def stepPort (s : State) : Host.Outcome State Fault Refusal :=
  match s.port with
  | [] => .next s
  | t :: rest => transact t { s with port := rest }

/-- The run of a program from a state (R185): its words issued in order with H_ISSUE. -/
def runProgram : List CmdWord → State → Host.Outcome State Fault Refusal
  | [], s => .next s
  | c :: cs, s =>
    match hIssue c s with
    | .next s' => runProgram cs s'
    | .fault r => .fault r
    | .refused r => .refused r

/-- The state with a command word as the host's next transaction, before those already at the port. -/
def State.issueNext (s : State) (c : CmdWord) : State := { s with port := .issue c :: s.port }

end Sys2Proof.Machine
end

