-- ==== Sys2Proof/Machine/Step.lean ====
section
/-! DEFINITION. One step of the machine: the host's next transaction. -/

namespace Sys2Proof.Machine

/-- One step: the next transaction of the host, complete before the one after it (spec/20_memory.md R48). -/
def step (s : State) : Host.Outcome State Fault Refusal := stepPort s

/-- s with the table's word as the next command of the host. The unit fetches nothing (10_state.md R24), so
this stands for the host's H_ISSUE (log 12). On a halted unit that command is rejected (R168). -/
def State.withFetchWord (s : State) (nbits w : Nat) : State := s.issueNext (BitVec.ofNat 32 (w % 2 ^ nbits))

end Sys2Proof.Machine
end

