-- ==== Sys2Proof/Safety.lean ====
section
/-! DEFINITION. What a legal state and a safe run of the unit are, in the terms the statements use. -/

namespace Sys2Proof.Machine

/-- The unit is halted by a fault (spec/60_exceptions.md R163). -/
def State.halted (s : State) : Prop := s.status.f = true

/-- A state the hardware can be in: memory in its canonical form (log 5), and STATUS.F and FCODE in step
(10_state.md R25). -/
def State.Inv (s : State) : Prop := s.mem.wf = true ∧ s.status.legal = true

/-- FCMD and FCODE tell the truth about the fault (R26, R162): with F = 0 both are 0; with F = 1, FCMD is a
word that decodes to a fault of that code, or to an LDF or STF when the code is BAD_OFFSET or BAD_INDEX. -/
def State.FaultRecord (s : State) : Prop :=
  if s.status.f then
    (∃ code, decode s.fcmd = .error code ∧ s.status.fcode = code.num) ∨
    (∃ ty r ra rb, (decode s.fcmd = .ok (.ldf ty r ra rb) ∨ decode s.fcmd = .ok (.stf ty r ra rb)) ∧
      (s.status.fcode = FaultCode.badOffset.num ∨ s.status.fcode = FaultCode.badIndex.num))
  else s.status.fcode = 0 ∧ s.fcmd = 0

/-- A safe run of a program: it ends in a state that is not halted (R184 step 5). -/
def SafeRun (cs : List CmdWord) (s : State) : Prop := ∃ t, runProgram cs s = .next t ∧ ¬ t.halted

end Sys2Proof.Machine
end

