-- ==== Sys2Proof/Certificates/Slice0/Obligations.lean ====
section
/-! DEFINITION. The statements for the provers. Each docstring names the rules of spec/ it rests on. -/

open Sys2Proof Sys2Proof.Machine

/-! ## Encoding and decoding -/

/-- Words written out from 30_encoding.md R60 and R65, one of each command and one of each decode fault. -/
def Obligations.SpecWordsDecode : Prop :=
  decode 0x18B12000 = .ok (.norm ⟨true, 12⟩ 1 2) ∧
  decode 0x28B42300 = .ok (.ldf ⟨true, 12⟩ 4 2 3) ∧
  decode 0x33F12300 = .ok (.stf ⟨false, 64⟩ 1 2 3) ∧
  decode 0x4FF31200 = .ok (.add ⟨true, 128⟩ 3 1 2) ∧
  decode 0x5FF43200 = .ok (.sub ⟨true, 128⟩ 4 3 2) ∧
  decode 0x67F51200 = .ok (.cmp ⟨false, 128⟩ 5 1 2) ∧
  decode 0x78021300 = .ok (.shl ⟨true, 1⟩ 2 1 3) ∧
  decode 0x80B21300 = .ok (.shr ⟨false, 12⟩ 2 1 3) ∧
  decode 0x9BF21300 = .ok (.shrz ⟨true, 64⟩ 2 1 3) ∧
  decode 0x00000000 = .error .illegalOpcode ∧
  decode 0x1E312300 = .error .reservedField ∧
  decode 0x4C031200 = .error .illegalWidth

/-- Decoding the word of any well-formed command gives the command back (R60 to R66). -/
def Obligations.DecodeOfEncode : Prop :=
  ∀ i : Instr, i.wellFormed = true → decode (encode i) = .ok i

/-- A word that decodes is the word of exactly the well-formed command it decodes to (R65). -/
def Obligations.EncodeOfDecode : Prop :=
  ∀ (w : CmdWord) (i : Instr), decode w = .ok i → i.wellFormed = true ∧ encode i = w

/-- R66, with the field places of R60 and the legal widths of R62: the checks in order, the first that holds
deciding, and otherwise the command that OP names with the fields as its operands. -/
def Obligations.DecodeChecksInOrder : Prop :=
  ∀ w : CmdWord,
    let op := (w.extractLsb' 28 4).toNat
    let wm1 := (w.extractLsb' 20 7).toNat
    let z := (w.extractLsb' 0 8).toNat
    let rb := (w.extractLsb' 8 4).toNat
    let reserved := z ≠ 0 ∨ (op = 1 ∧ rb ≠ 0)
    let legal := wm1 ≤ 63 ∨ (wm1 = 127 ∧ op ≠ 2 ∧ op ≠ 3)
    (op = 0 ∨ 10 ≤ op → decode w = .error .illegalOpcode) ∧
    (1 ≤ op ∧ op ≤ 9 → reserved → decode w = .error .reservedField) ∧
    (1 ≤ op ∧ op ≤ 9 → ¬reserved → ¬legal → decode w = .error .illegalWidth) ∧
    (1 ≤ op ∧ op ≤ 9 → ¬reserved → legal →
      ∃ i, decode w = .ok i ∧ i.op = op ∧ i.ty.signed = w.getLsbD 27 ∧ i.ty.width = wm1 + 1 ∧
        i.regFields.1.val = (w.extractLsb' 16 4).toNat ∧ i.regFields.2.1.val = (w.extractLsb' 12 4).toNat ∧
        i.regFields.2.2.val = rb)

/-- R69: MOV copies all 128 bits and has the word the rule gives; SEXT and ZEXT extend bits W-1:0 of the
source; SUCC and PRED are ADD and SUB of a register that holds 1, so they change the value by 1, wrapped. -/
def Obligations.PseudoInstructions : Prop :=
  (∀ rd ra, (encode (pseudoMov rd ra)).toNat = 0x17F00000 + rd.val * 2 ^ 16 + ra.val * 2 ^ 12) ∧
  (∀ rd ra s, exec (pseudoMov rd ra) s = .next { s with v := s.v.set rd.val (s.readV ra) rd.isLt }) ∧
  (∀ W rd ra s, 1 ≤ W → W ≤ 64 ∨ W = 128 →
    exec (pseudoSext W rd ra) s =
      .next { s with v := s.v.set rd.val (((s.readV ra).setWidth W).signExtend 128) rd.isLt }) ∧
  (∀ W rd ra s, 1 ≤ W → W ≤ 64 ∨ W = 128 →
    exec (pseudoZext W rd ra) s =
      .next { s with v := s.v.set rd.val (((s.readV ra).setWidth W).setWidth 128) rd.isLt }) ∧
  (∀ ty rd ra one s, ty.legalValue = true → s.readV one = 1 →
    (∃ t, exec (pseudoSucc ty rd ra one) s = .next t ∧ t.readV rd = canon ty (opnd ty (s.readV ra) + 1)) ∧
    (∃ t, exec (pseudoPred ty rd ra one) s = .next t ∧ t.readV rd = canon ty (opnd ty (s.readV ra) - 1)))

/-! ## The host's port and the step

That the host's transactions stand at a port and each leaves a reply in State is the model's choice (logs 1, 2);
what a transaction does and answers is the spec's. -/

/-- A step runs the decoded command: H_ISSUE of a word that decodes, on a unit that is not halted, is exec of
that command at the state whose port has moved past it and whose reply is accepted (R27). -/
def Obligations.StepRunsDecodedCommand : Prop :=
  ∀ (s : State) (c : CmdWord) (rest : List HostTxn) (i : Instr),
    s.port = .issue c :: rest → s.status.f = false → decode c = .ok i →
    step s = exec i { s with port := rest, reply := some .accepted }

/-- A word that does not decode takes fault entry (R163), and nothing else happens (R164). -/
def Obligations.UndecodableWordTakesFault : Prop :=
  ∀ (s : State) (c : CmdWord) (rest : List HostTxn) (code : FaultCode),
    s.port = .issue c :: rest → s.status.f = false → decode c = .error code →
    step s = .next { s with port := rest, reply := some .accepted,
                            status := { c := s.status.c, f := true, fcode := code.num }, fcmd := c }

/-- While STATUS.F = 1, H_ISSUE does nothing and answers rejected, and the six transactions that read or write
V, M, STATUS and FCMD still work (R168). -/
def Obligations.HaltedUnitRejectsIssue : Prop :=
  ∀ (s : State) (rest : List HostTxn), s.status.f = true →
    (∀ c, s.port = .issue c :: rest → step s = .next { s with port := rest, reply := some .rejected }) ∧
    (∀ i, s.port = .rdv i :: rest →
      step s = .next { s with port := rest, reply := some (.value (s.readV i)) }) ∧
    (∀ i x, s.port = .wrv i x :: rest →
      step s = .next { s with port := rest, reply := none, v := s.v.set i.val x i.isLt }) ∧
    (∀ j, j < s.mem.nwords → s.port = .rdm j :: rest →
      step s = .next { s with port := rest, reply := some (.word (s.mem.read j)) }) ∧
    (∀ j w, j < s.mem.nwords → s.port = .wrm j w :: rest →
      ∃ m, step s = .next { s with port := rest, reply := none, mem := m } ∧ m.read j = w) ∧
    (s.port = .rdstatus :: rest →
      step s = .next { s with port := rest, reply := some (.status s.status.word) }) ∧
    (s.port = .rdfcmd :: rest → step s = .next { s with port := rest, reply := some (.fcmd s.fcmd) })

/-- The eight transactions other than H_ISSUE, in every state (R27): effect and result. -/
def Obligations.HostTransactionEffects : Prop :=
  ∀ (s : State) (rest : List HostTxn),
    (∀ i, s.port = .rdv i :: rest →
      step s = .next { s with port := rest, reply := some (.value (s.readV i)) }) ∧
    (∀ i x, s.port = .wrv i x :: rest →
      step s = .next { s with port := rest, reply := none, v := s.v.set i.val x i.isLt }) ∧
    (∀ j, j < s.mem.nwords → s.port = .rdm j :: rest →
      step s = .next { s with port := rest, reply := some (.word (s.mem.read j)) }) ∧
    (∀ j w, j < s.mem.nwords → s.port = .wrm j w :: rest →
      ∃ m, step s = .next { s with port := rest, reply := none, mem := m } ∧ m.nwords = s.mem.nwords ∧
        m.read j = w ∧ ∀ k, k ≠ j → m.read k = s.mem.read k) ∧
    (s.port = .rdstatus :: rest →
      step s = .next { s with port := rest, reply := some (.status s.status.word) }) ∧
    (s.port = .rdfcmd :: rest → step s = .next { s with port := rest, reply := some (.fcmd s.fcmd) }) ∧
    (s.port = .clear :: rest →
      step s = .next { s with port := rest, reply := none, fcmd := 0,
                              status := { c := s.status.c, f := false, fcode := 0 } }) ∧
    (s.port = .reset :: rest →
      step s = .next { s with port := rest, reply := none, fcmd := 0, v := Vector.replicate 16 0,
                              status := { c := false, f := false, fcode := 0 } })

/-- A host read or write of M at or above NWORDS is refused by name (R27, 93 I16). -/
def Obligations.HostIndexOutOfRangeRefused : Prop :=
  ∀ (s : State) (rest : List HostTxn) (j : Nat) (w : Word), s.mem.nwords ≤ j →
    (s.port = .rdm j :: rest → step s = .refused (.hostIndexOutOfRange j)) ∧
    (s.port = .wrm j w :: rest → step s = .refused (.hostIndexOutOfRange j))

/-- With nothing at the port the unit is idle and all its state is held (R176). That the model takes a step
there is its own choice (log 6). -/
def Obligations.IdleStepHoldsState : Prop :=
  ∀ s : State, s.port = [] → step s = .next s

/-- The machine never stops by itself: a step answers a next state, unless the host names a word outside M
(R160, R161; R27). -/
def Obligations.StepAlwaysAnswers : Prop :=
  ∀ s : State, (∃ t, step s = .next t) ∨
    (∃ j rest, (s.port = .rdm j :: rest ∨ ∃ w, s.port = .wrm j w :: rest) ∧ s.mem.nwords ≤ j ∧
      step s = .refused (.hostIndexOutOfRange j))

/-- H_CLEAR keeps V, M and C, and after it the next H_ISSUE executes normally; the faulting command is not
retried (R169). -/
def Obligations.ClearThenIssueExecutes : Prop :=
  ∀ (s : State) (c : CmdWord) (rest : List HostTxn), s.port = .clear :: .issue c :: rest →
    let u : State := { s with status := { c := s.status.c, f := false, fcode := 0 }, fcmd := 0,
                              port := rest, reply := some .accepted }
    Sys2Proof.core.run 2 s =
      match decode c with
      | .ok i => exec i u
      | .error code => .next { u with status := { c := s.status.c, f := true, fcode := code.num }, fcmd := c }

/-! ## Reset and invariants -/

/-- The reset values of 10_state.md R31, and that H_RESET gives them in every state and does not change M
(R180). After reset H_ISSUE is accepted at once (R181). -/
def Obligations.ResetValues : Prop :=
  (∀ i, State.reset.readV i = 0) ∧ State.reset.status.word = 0 ∧ State.reset.fcmd = 0 ∧
  State.reset.faultO = false ∧
  (∀ (s : State) (rest : List HostTxn), s.port = .reset :: rest →
    ∃ t, step s = .next t ∧ (∀ i, t.readV i = 0) ∧ t.status.word = 0 ∧ t.fcmd = 0 ∧ t.faultO = false ∧
      t.mem = s.mem ∧ t.port = rest) ∧
  (∀ c, ∃ t, step { State.reset with port := [.issue c] } = .next t ∧ t.reply = some .accepted)

/-- The state after reset meets both invariants. -/
def Obligations.ResetMeetsInvariants : Prop := State.reset.Inv ∧ State.reset.FaultRecord

/-- Every step keeps the memory's canonical form and size and keeps STATUS.F and FCODE in step (R25, R40). -/
def Obligations.StepKeepsInvariant : Prop :=
  ∀ s t : State, s.Inv → step s = .next t → t.Inv ∧ t.mem.nwords = s.mem.nwords

/-- Every step keeps the fault record true: with F = 1, FCMD is a word that raises FCODE's fault; with F = 0,
both are 0 (R26, R162, R163). -/
def Obligations.StepKeepsFaultRecord : Prop :=
  ∀ s t : State, s.FaultRecord → step s = .next t → t.FaultRecord

/-- Who changes what, over one step of the whole machine: C only ADD, SUB and H_RESET; F rises only by a
command and falls only by H_CLEAR or H_RESET; M only STF and H_WRM; a value register only by H_WRV, H_RESET
or a command other than STF that names it as RD; FCMD only by a command, H_CLEAR or H_RESET (R21, R25, R26, R44, R167). -/
def Obligations.WhoChangesWhat : Prop :=
  ∀ (s t : State) (x : HostTxn) (rest : List HostTxn), s.port = x :: rest → step s = .next t →
    (t.status.c ≠ s.status.c →
      x = .reset ∨ ∃ c i, x = .issue c ∧ decode c = .ok i ∧ (i.op = 4 ∨ i.op = 5)) ∧
    (s.status.f = true → t.status.f = false → x = .clear ∨ x = .reset) ∧
    (s.status.f = false → t.status.f = true → ∃ c, x = .issue c ∧ t.fcmd = c) ∧
    (t.mem ≠ s.mem →
      (∃ j w, x = .wrm j w) ∨ ∃ c i, x = .issue c ∧ s.status.f = false ∧ decode c = .ok i ∧ i.op = 3) ∧
    (∀ r, t.readV r ≠ s.readV r →
      (∃ y, x = .wrv r y) ∨ x = .reset ∨
      ∃ c i, x = .issue c ∧ s.status.f = false ∧ decode c = .ok i ∧ i.op ≠ 3 ∧ i.regFields.1 = r) ∧
    (t.fcmd ≠ s.fcmd → x = .clear ∨ x = .reset ∨ ∃ c, x = .issue c ∧ t.fcmd = c ∧ t.status.f = true)

/-! ## Frames and faults of the commands -/

/-- What a command leaves unchanged when it gives a next state: every register but its RD (STF: every
register); C but for ADD and SUB; F, FCODE and FCMD but for a fault of LDF or STF; every word of M but for
STF; the port and the reply always (R21, R25, R44). -/
def Obligations.CommandFrame : Prop :=
  ∀ (i : Instr) (s t : State), exec i s = .next t →
    (∀ r, i.op = 3 ∨ r ≠ i.regFields.1 → t.readV r = s.readV r) ∧
    (i.op ≠ 4 → i.op ≠ 5 → t.status.c = s.status.c) ∧
    (i.op ≠ 2 → i.op ≠ 3 →
      t.status.f = s.status.f ∧ t.status.fcode = s.status.fcode ∧ t.fcmd = s.fcmd) ∧
    (i.op ≠ 3 → ∀ j, t.mem.read j = s.mem.read j) ∧ t.mem.nwords = s.mem.nwords ∧
    t.port = s.port ∧ t.reply = s.reply

/-- The words STF stores to are word i and, when the field straddles, word i + 1; every other word of M reads
as before, whether the command faults or not (R44, R94). -/
def Obligations.StfWordFrame : Prop :=
  ∀ (ty : Ty) (rs ra rb : Reg) (s t : State), exec (.stf ty rs ra rb) s = .next t →
    ∀ j, j ≠ wordIndex (s.readV ra) →
      (bitOffset (s.readV rb) + ty.width ≤ 64 ∨ j ≠ wordIndex (s.readV ra) + 1) →
      t.mem.read j = s.mem.read j

/-- The checks of LDF and STF (R90, R162): an offset above 63 is BAD_OFFSET, a field outside M is BAD_INDEX,
with unbounded i + 1; the fault writes F, FCODE and FCMD and nothing else. -/
def Obligations.CodecFaults : Prop :=
  ∀ (ty : Ty) (rd ra rb : Reg) (s : State) (i : Instr),
    i = .ldf ty rd ra rb ∨ i = .stf ty rd ra rb →
    let idx := (s.readV ra).toNat % 2 ^ 64
    let off := (s.readV rb).toNat % 2 ^ 64
    (63 < off →
      exec i s = .next { s with status := { c := s.status.c, f := true, fcode := 4 }, fcmd := encode i }) ∧
    (off ≤ 63 → (s.mem.nwords ≤ idx ∨ (64 < off + ty.width ∧ s.mem.nwords ≤ idx + 1)) →
      exec i s = .next { s with status := { c := s.status.c, f := true, fcode := 5 }, fcmd := encode i })

/-- R164: a command that faults writes no value register, no word of M and not STATUS.C; its only effects are
those of R163, and FCMD is the issued word itself. -/
def Obligations.FaultsArePrecise : Prop :=
  ∀ (s t : State) (c : CmdWord) (rest : List HostTxn),
    s.port = .issue c :: rest → s.status.f = false → step s = .next t → t.status.f = true →
    ∃ code : FaultCode,
      t = { s with port := rest, reply := some .accepted, fcmd := c,
                   status := { c := s.status.c, f := true, fcode := code.num } }

/-- A command faults exactly when one of the five conditions of R162 holds for its word and the state, and the
lowest code among those that hold is the one reported (R165). -/
def Obligations.LowestFaultCodeWins : Prop :=
  ∀ (s : State) (c : CmdWord) (rest : List HostTxn), s.port = .issue c :: rest → s.status.f = false →
    let op := (c.extractLsb' 28 4).toNat
    let W := (c.extractLsb' 20 7).toNat + 1
    let idx := (s.readV (Fin.ofNat 16 (c.extractLsb' 12 4).toNat)).toNat % 2 ^ 64
    let off := (s.readV (Fin.ofNat 16 (c.extractLsb' 8 4).toNat)).toNat % 2 ^ 64
    let codec := op = 2 ∨ op = 3
    let illegalOpcode := op = 0 ∨ 10 ≤ op
    let reservedField := (c.extractLsb' 0 8).toNat ≠ 0 ∨ (op = 1 ∧ (c.extractLsb' 8 4).toNat ≠ 0)
    let illegalWidth := 64 < W ∧ (codec ∨ W ≠ 128)
    let badOffset := codec ∧ 63 < off
    let badIndex := codec ∧ (s.mem.nwords ≤ idx ∨ (64 < off + W ∧ s.mem.nwords ≤ idx + 1))
    ∃ t, step s = .next t ∧
      (t.status.f = true ↔ illegalOpcode ∨ reservedField ∨ illegalWidth ∨ badOffset ∨ badIndex) ∧
      (illegalOpcode → t.status.fcode = 1) ∧
      (¬illegalOpcode → reservedField → t.status.fcode = 2) ∧
      (¬illegalOpcode → ¬reservedField → illegalWidth → t.status.fcode = 3) ∧
      (¬illegalOpcode → ¬reservedField → ¬illegalWidth → badOffset → t.status.fcode = 4) ∧
      (¬illegalOpcode → ¬reservedField → ¬illegalWidth → ¬badOffset → badIndex → t.status.fcode = 5)

/-- A command never depends on the bits of a register above those its operand reads (R23, R64): two states
that agree on those bits (and, for the codec, on M) agree on every result. -/
def Obligations.OnlyOperandBitsMatter : Prop :=
  ∀ (ty : Ty) (rd ra rb : Reg) (s t s' t' : State),
    let agree := fun (n : Nat) (r : Reg) => (s.readV r).toNat % 2 ^ n = (t.readV r).toNat % 2 ^ n
    (ty.legalValue = true → agree ty.width ra →
      exec (.norm ty rd ra) s = .next s' → exec (.norm ty rd ra) t = .next t' →
      s'.readV rd = t'.readV rd) ∧
    (ty.legalValue = true → agree ty.width ra → agree ty.width rb →
      ∀ i, i = .add ty rd ra rb ∨ i = .sub ty rd ra rb → exec i s = .next s' → exec i t = .next t' →
      s'.readV rd = t'.readV rd ∧ s'.status.c = t'.status.c) ∧
    (ty.legalValue = true → agree ty.width ra → agree ty.width rb →
      exec (.cmp ty rd ra rb) s = .next s' → exec (.cmp ty rd ra rb) t = .next t' →
      s'.readV rd = t'.readV rd) ∧
    (ty.legalValue = true → agree ty.width ra → agree 32 rb →
      ∀ i, i = .shl ty rd ra rb ∨ i = .shr ty rd ra rb ∨ i = .shrz ty rd ra rb →
      exec i s = .next s' → exec i t = .next t' → s'.readV rd = t'.readV rd) ∧
    (ty.legalField = true → agree 64 ra → agree 64 rb → s.mem = t.mem → s.readV rd = t.readV rd →
      s.status = t.status →
      exec (.ldf ty rd ra rb) s = .next s' → exec (.ldf ty rd ra rb) t = .next t' →
      s'.readV rd = t'.readV rd ∧ s'.status = t'.status) ∧
    (ty.legalField = true → agree ty.width rd → agree 64 ra → agree 64 rb → s.mem = t.mem →
      s.status = t.status →
      exec (.stf ty rd ra rb) s = .next s' → exec (.stf ty rd ra rb) t = .next t' →
      s'.mem = t'.mem ∧ s'.status = t'.status)

/-! ## Runs of programs -/

/-- Issuing any words to a halted unit changes nothing but the reply (R168, R185). -/
def Obligations.HaltedRunChangesNothing : Prop :=
  ∀ (cs : List CmdWord) (s : State), s.halted →
    runProgram cs s = .next { s with reply := if cs = [] then s.reply else some .rejected }

/-- A run ends at the first word that faults: the later words are issued but rejected, so the end state is the
one right after the fault, but for the reply (R185). -/
def Obligations.RunEndsAtFirstFault : Prop :=
  ∀ (before after : List CmdWord) (c : CmdWord) (s s1 s2 : State),
    runProgram before s = .next s1 → hIssue c s1 = .next s2 → s2.halted →
    runProgram (before ++ c :: after) s =
      .next { s2 with reply := if after = [] then s2.reply else some .rejected }

/-- A program's run is what the machine's own steps do with its words at the port: it always ends, after one
step a word, and what stands behind the program at the port is untouched (R24, R48, R185). That the host's
transactions stand in a list at the port, one step doing the first of them, is the model's choice (log 1). -/
def Obligations.RunIsStepsOfTheMachine : Prop :=
  ∀ (cs : List CmdWord) (rest : List HostTxn) (s : State), s.port = cs.map HostTxn.issue ++ rest →
    ∃ t : State, runProgram cs { s with port := rest } = .next t ∧
      Sys2Proof.core.run cs.length s = .next t ∧ t.port = rest

/-! ## The results of the commands, each its completion as well -/

/-- NORM (R81): the result's bits below W are the source's, and every bit from W up is the sign bit W-1 for
S = 1 and 0 for S = 0; nothing else changes. -/
def Obligations.NormExtendsTheField : Prop :=
  ∀ (ty : Ty) (rd ra : Reg) (s : State), ty.legalValue = true →
    ∃ x : Value, exec (.norm ty rd ra) s = .next { s with v := s.v.set rd.val x rd.isLt } ∧
      ∀ k, k < 128 → x.getLsbD k =
        if k < ty.width then (s.readV ra).getLsbD k else ty.signed && (s.readV ra).getLsbD (ty.width - 1)

/-- ADD (R112, R113): at every width, the two-word kernel of W = 128 included, the result is canon(a + b), which
at W = 128 is (A + B) mod 2^128; C is the carry out of the low word at W = 128 and 0 otherwise; nothing else
changes. -/
def Obligations.AddIsWrappedSum : Prop :=
  ∀ (ty : Ty) (rd ra rb : Reg) (s : State), ty.legalValue = true →
    let sum := canon ty (opnd ty (s.readV ra) + opnd ty (s.readV rb))
    exec (.add ty rd ra rb) s = .next { s with
      v := s.v.set rd.val sum rd.isLt,
      status := { c := decide (ty.width = 128 ∧
                    2 ^ 64 ≤ (s.readV ra).toNat % 2 ^ 64 + (s.readV rb).toNat % 2 ^ 64),
                  f := s.status.f, fcode := s.status.fcode } } ∧
    (ty.width = 128 → sum.toNat = ((s.readV ra).toNat + (s.readV rb).toNat) % 2 ^ 128)

/-- SUB (R116, R117): at every width the result is canon(a - b), which at W = 128 is (A - B) mod 2^128; C is the
borrow out of the low word at W = 128 and 0 otherwise; nothing else changes. -/
def Obligations.SubIsWrappedDifference : Prop :=
  ∀ (ty : Ty) (rd ra rb : Reg) (s : State), ty.legalValue = true →
    let diff := canon ty (opnd ty (s.readV ra) - opnd ty (s.readV rb))
    exec (.sub ty rd ra rb) s = .next { s with
      v := s.v.set rd.val diff rd.isLt,
      status := { c := decide (ty.width = 128 ∧
                    (s.readV ra).toNat % 2 ^ 64 < (s.readV rb).toNat % 2 ^ 64),
                  f := s.status.f, fcode := s.status.fcode } } ∧
    (ty.width = 128 →
      (diff.toNat : Int) = (((s.readV ra).toNat : Int) - ((s.readV rb).toNat : Int)) % 2 ^ 128)

/-- CMP (R130, R131, R133): at every width the result is the 128-bit pattern of -1, 0 or 1 by the numeric order
of the operand values; nothing else changes. -/
def Obligations.CmpIsNumericOrder : Prop :=
  ∀ (ty : Ty) (rd ra rb : Reg) (s : State), ty.legalValue = true →
    let a := opnd ty (s.readV ra)
    let b := opnd ty (s.readV rb)
    exec (.cmp ty rd ra rb) s = .next { s with
      v := s.v.set rd.val (if a < b then BitVec.allOnes 128 else if a = b then 0 else 1) rd.isLt }

/-- SHL (R140, R142 to R144): with c the signed low 32 bits of the count register and k = |c| mod W, the result
is canon(a * 2^k) for c ≥ 0 and canon(floor(a / 2^k)) for c < 0, at W = 128 by repeated single-bit shifts;
nothing else changes. -/
def Obligations.ShlMultiplies : Prop :=
  ∀ (ty : Ty) (rd ra rb : Reg) (s : State), ty.legalValue = true →
    let c := ((s.readV rb).setWidth 32).toInt
    let k := c.natAbs % ty.width
    let a := opnd ty (s.readV ra)
    exec (.shl ty rd ra rb) s = .next { s with
      v := s.v.set rd.val (if 0 ≤ c then canon ty (a * 2 ^ k) else canon ty (a / 2 ^ k)) rd.isLt }

/-- SHR (R140, R142, R143, R145): canon(floor(a / 2^k)) for c ≥ 0, which is the fill-zero shift when S = 0, and
canon(a * 2^k) for c < 0; nothing else changes. -/
def Obligations.ShrDividesByFloor : Prop :=
  ∀ (ty : Ty) (rd ra rb : Reg) (s : State), ty.legalValue = true →
    let c := ((s.readV rb).setWidth 32).toInt
    let k := c.natAbs % ty.width
    let a := opnd ty (s.readV ra)
    exec (.shr ty rd ra rb) s = .next { s with
      v := s.v.set rd.val (if 0 ≤ c then canon ty (a / 2 ^ k) else canon ty (a * 2 ^ k)) rd.isLt }

/-- SHRZ (R140, R142, R143, R146): for c ≥ 0 the W-bit pattern of the source, shifted right with zeros entering
at bit W-1; canon(a * 2^k) for c < 0; nothing else changes. -/
def Obligations.ShrzShiftsThePattern : Prop :=
  ∀ (ty : Ty) (rd ra rb : Reg) (s : State), ty.legalValue = true →
    let c := ((s.readV rb).setWidth 32).toInt
    let k := c.natAbs % ty.width
    let p := (s.readV ra).toNat % 2 ^ ty.width
    exec (.shrz ty rd ra rb) s = .next { s with
      v := s.v.set rd.val
        (if 0 ≤ c then canon ty ((p / 2 ^ k : Nat) : Int) else canon ty (opnd ty (s.readV ra) * 2 ^ k)) rd.isLt }

/-- LDF (R41, R92): for a field that lies in M, result bit k below W is stream bit 64*i + off + k of M, and every
bit from W up is the field's top bit for S = 1 and 0 for S = 0; nothing else changes. -/
def Obligations.LdfReadsStreamBits : Prop :=
  ∀ (ty : Ty) (rd ra rb : Reg) (s : State), ty.legalField = true →
    let i := (s.readV ra).toNat % 2 ^ 64
    let off := (s.readV rb).toNat % 2 ^ 64
    off ≤ 63 → i < s.mem.nwords → (64 < off + ty.width → i + 1 < s.mem.nwords) →
    ∃ x : Value, exec (.ldf ty rd ra rb) s = .next { s with v := s.v.set rd.val x rd.isLt } ∧
      ∀ k, k < 128 → x.getLsbD k =
        if k < ty.width then s.mem.streamBit (64 * i + off + k)
        else ty.signed && s.mem.streamBit (64 * i + off + (ty.width - 1))

/-- STF (R41, R94, R95 law 2): for a field that lies in M, stream bit 64*i + off + k becomes bit k of the source
for k below W, and every other bit of M is kept exactly; nothing else changes. -/
def Obligations.StfWritesStreamBits : Prop :=
  ∀ (ty : Ty) (rs ra rb : Reg) (s : State), ty.legalField = true →
    let i := (s.readV ra).toNat % 2 ^ 64
    let off := (s.readV rb).toNat % 2 ^ 64
    off ≤ 63 → i < s.mem.nwords → (64 < off + ty.width → i + 1 < s.mem.nwords) →
    ∃ m : Memory, exec (.stf ty rs ra rb) s = .next { s with mem := m } ∧ m.nwords = s.mem.nwords ∧
      ∀ p, m.streamBit p =
        if 64 * i + off ≤ p ∧ p < 64 * i + off + ty.width then (s.readV rs).getLsbD (p - (64 * i + off))
        else s.mem.streamBit p

/-- Round trip (R95 law 1): LDF right after STF of the same type at the same place, into any register, gives the
canonical pattern of the value stored. -/
def Obligations.StfThenLdfRoundTrip : Prop :=
  ∀ (ty : Ty) (rs rd ra rb : Reg) (s : State), ty.legalField = true →
    let i := (s.readV ra).toNat % 2 ^ 64
    let off := (s.readV rb).toNat % 2 ^ 64
    off ≤ 63 → i < s.mem.nwords → (64 < off + ty.width → i + 1 < s.mem.nwords) →
    ∃ s1 s2 : State, exec (.stf ty rs ra rb) s = .next s1 ∧ exec (.ldf ty rd ra rb) s1 = .next s2 ∧
      s2.readV rd = canon ty (s.readV rs).toNat ∧ opnd ty (s2.readV rd) = opnd ty (s.readV rs)

/-- Two STFs to disjoint fields commute (R95 law 4): both orders end in the same state, also when the fields
share a word. -/
def Obligations.DisjointStfsCommute : Prop :=
  ∀ (ty1 ty2 : Ty) (rs1 ra1 rb1 rs2 ra2 rb2 : Reg) (s : State),
    s.mem.wf = true → ty1.legalField = true → ty2.legalField = true →
    let i1 := (s.readV ra1).toNat % 2 ^ 64
    let off1 := (s.readV rb1).toNat % 2 ^ 64
    let i2 := (s.readV ra2).toNat % 2 ^ 64
    let off2 := (s.readV rb2).toNat % 2 ^ 64
    off1 ≤ 63 → i1 < s.mem.nwords → (64 < off1 + ty1.width → i1 + 1 < s.mem.nwords) →
    off2 ≤ 63 → i2 < s.mem.nwords → (64 < off2 + ty2.width → i2 + 1 < s.mem.nwords) →
    (64 * i1 + off1 + ty1.width ≤ 64 * i2 + off2 ∨ 64 * i2 + off2 + ty2.width ≤ 64 * i1 + off1) →
    ∃ a b t : State,
      exec (.stf ty1 rs1 ra1 rb1) s = .next a ∧ exec (.stf ty2 rs2 ra2 rb2) a = .next t ∧
      exec (.stf ty2 rs2 ra2 rb2) s = .next b ∧ exec (.stf ty1 rs1 ra1 rb1) b = .next t

/-! ## The kernels and the laws of the types -/

/-- R80: the normalised value is the one integer in the type's range that is congruent to raw mod 2^W. -/
def Obligations.NormIsUniqueInRange : Prop :=
  ∀ (ty : Ty) (raw : Int), ty.legalValue = true →
    ty.minVal ≤ norm ty raw ∧ norm ty raw ≤ ty.maxVal ∧ norm ty raw % 2 ^ ty.width = raw % 2 ^ ty.width ∧
    ∀ v : Int, ty.minVal ≤ v → v ≤ ty.maxVal → v % 2 ^ ty.width = raw % 2 ^ ty.width → v = norm ty raw

/-- The laws of R82: idempotence; the bits above W; a result is read back unchanged; wraparound; reading at a
wider type of the same signedness, and re-wrapping at any other; equality of canonical patterns is equality
of values. -/
def Obligations.CanonicalFormLaws : Prop :=
  ∀ (ty : Ty) (x y : Int), ty.legalValue = true →
    canon ty (canon ty x).toNat = canon ty x ∧
    (∀ k, ty.width ≤ k → k < 128 →
      (canon ty x).getLsbD k = (ty.signed && (canon ty x).getLsbD (ty.width - 1))) ∧
    opnd ty (canon ty x) = norm ty x ∧
    norm ty x % 2 ^ ty.width = x % 2 ^ ty.width ∧
    (∀ ty' : Ty, ty'.legalValue = true →
      (ty'.signed = ty.signed → ty.width ≤ ty'.width → opnd ty' (canon ty x) = norm ty x) ∧
      opnd ty' (canon ty x) = norm ty' (norm ty x)) ∧
    (canon ty x = canon ty y ↔ norm ty x = norm ty y)

/-- R111: the case split on the top bits is exactly the carry out of a 64-bit unsigned add. -/
def Obligations.CarryIsUnsignedOverflow : Prop :=
  ∀ x y : Word, (carry64 x y).toNat = (x.toNat + y.toNat) / 2 ^ 64

/-- R114: the mirrored case split is exactly x <u y, and x - y is its 64-bit wrap less the borrow's weight. -/
def Obligations.BorrowIsUnsignedLess : Prop :=
  ∀ x y : Word, (borrow64 x y = true ↔ x.toNat < y.toNat) ∧
    (x.toNat : Int) - y.toNat = (x - y).toNat - 2 ^ 64 * ((borrow64 x y).toNat : Int)

/-- R141: the two-word single-bit shifts are the shifts by one of the whole 128-bit pattern. -/
def Obligations.SingleBitShiftsCrossTheWords : Prop :=
  ∀ x : Value, shl1 x = x <<< 1 ∧ sar1 x = x.sshiftRight 1 ∧ shr1z x = x >>> 1

/-- R142: the k-fold single-bit shift at W = 128 equals the direct formulas of R143. -/
def Obligations.RepeatedShiftIsDirectShift : Prop :=
  ∀ (signed : Bool) (dir : ShiftDir) (k : Nat) (x : Value), k < 128 →
    shiftWide signed dir k x = shiftFormula ⟨signed, 128⟩ dir k x

/-- The laws of R118, as equalities of canonical patterns, at every type. -/
def Obligations.AddSubLaws : Prop :=
  ∀ (ty : Ty) (x y z : Value), ty.legalValue = true →
    let add := fun a b => (addValues ty a b).1
    let sub := fun a b => (subValues ty a b).1
    sub (add x y) y = canon ty x.toNat ∧ add x y = add y x ∧ add (add x y) z = add x (add y z) ∧
    add x 0 = canon ty x.toNat ∧ sub x x = 0

/-- max + 1 wraps to min and min - 1 to max, at every type, and nothing is reported (R83, R110, R112, R116). -/
def Obligations.ExtremesWrapAround : Prop :=
  ∀ (ty : Ty) (rd ra rb : Reg) (s : State), ty.legalValue = true → s.readV rb = 1 →
    (opnd ty (s.readV ra) = ty.maxVal → ∃ t, exec (.add ty rd ra rb) s = .next t ∧
      opnd ty (t.readV rd) = ty.minVal ∧ t.status.f = s.status.f) ∧
    (opnd ty (s.readV ra) = ty.minVal → ∃ t, exec (.sub ty rd ra rb) s = .next t ∧
      opnd ty (t.readV rd) = ty.maxVal ∧ t.status.f = s.status.f)

/-- CMP is the total order of the values, and the predicates read it (R130, R134): exactly one of less, equal,
greater; antisymmetry; transitivity; signum. -/
def Obligations.CompareIsTotalOrder : Prop :=
  ∀ (ty : Ty) (x y z : Value), ty.legalValue = true →
    let r := compareValues ty x y
    (isLess r = true ↔ opnd ty x < opnd ty y) ∧ (isEqual r = true ↔ opnd ty x = opnd ty y) ∧
    (isGreater r = true ↔ opnd ty y < opnd ty x) ∧ (isLessEqual r = true ↔ opnd ty x ≤ opnd ty y) ∧
    (isGreaterEqual r = true ↔ opnd ty y ≤ opnd ty x) ∧ (isNotEqual r = true ↔ opnd ty x ≠ opnd ty y) ∧
    (r = -1 ∨ r = 0 ∨ r = 1) ∧ compareValues ty y x = -r ∧
    (isLessEqual r = true → isLessEqual (compareValues ty y z) = true →
      isLessEqual (compareValues ty x z) = true) ∧
    signum ty x = (opnd ty x).sign

/-- The laws of R147: shift modulo width, mirrored negative counts, shifting by one more is doubling, and the
signed right shift is floor division. -/
def Obligations.ShifterLaws : Prop :=
  ∀ (ty : Ty) (x : Value), ty.legalValue = true →
    let shl := fun (c : Int) => shiftValue ty (resolveCount .left .right ty.width c) x
    let shr := fun (c : Int) => shiftValue ty (resolveCount .right .left ty.width c) x
    let shrz := fun (c : Int) => shiftValue ty (resolveCount .zero .left ty.width c) x
    (∀ c : Int, 0 ≤ c → shl c = shl (c % ty.width) ∧ shr c = shr (c % ty.width) ∧
      shrz c = shrz (c % ty.width)) ∧
    (∀ c : Int, 0 < c → c < 2 ^ 31 → shl (-c) = shr c ∧ shr (-c) = shl c ∧ shrz (-c) = shl c) ∧
    (∀ k : Nat, 1 ≤ k → k < ty.width →
      shl k = (addValues ty (shl ((k : Int) - 1)) (shl ((k : Int) - 1))).1) ∧
    (ty.signed = true → ∀ k : Nat, k < ty.width → opnd ty (shr k) = opnd ty x / 2 ^ k)

/-- At W = 128 the signed and unsigned ADD and SUB give the same bits (R112, R116). -/
def Obligations.WideAddSubIgnoreSignedness : Prop :=
  ∀ (rd ra rb : Reg) (s : State),
    exec (.add ⟨true, 128⟩ rd ra rb) s = exec (.add ⟨false, 128⟩ rd ra rb) s ∧
    exec (.sub ⟨true, 128⟩ rd ra rb) s = exec (.sub ⟨false, 128⟩ rd ra rb) s

/-- For unsigned types SHR gives the same bits as SHRZ, at every width and count (R140, R145, R146). -/
def Obligations.UnsignedShrIsShrz : Prop :=
  ∀ (W : Nat) (rd ra rb : Reg) (s : State),
    exec (.shr ⟨false, W⟩ rd ra rb) s = exec (.shrz ⟨false, W⟩ rd ra rb) s

/-- STF stores the same bits for either S (R94): the two commands end in the same V, M and STATUS. -/
def Obligations.StfIgnoresSignedness : Prop :=
  ∀ (W : Nat) (rs ra rb : Reg) (s : State), ∃ a b : State,
    exec (.stf ⟨true, W⟩ rs ra rb) s = .next a ∧ exec (.stf ⟨false, W⟩ rs ra rb) s = .next b ∧
    a.v = b.v ∧ a.mem = b.mem ∧ a.status = b.status

/-- The layout of the STATUS word (R25): C bit 0, F bit 1, FCODE bits 7:4, every other bit 0; and fault_o
equals STATUS.F (R28). -/
def Obligations.StatusWordLayout : Prop :=
  ∀ s : State,
    s.status.word.getLsbD 0 = s.status.c ∧ s.status.word.getLsbD 1 = s.status.f ∧
    (∀ k, k < 4 → s.status.word.getLsbD (4 + k) = s.status.fcode.getLsbD k) ∧
    s.status.word.getLsbD 2 = false ∧ s.status.word.getLsbD 3 = false ∧
    (∀ k, 8 ≤ k → s.status.word.getLsbD k = false) ∧ s.faultO = s.status.f
end

