-- ==== Sys2Proof/Laws/Memory.lean ====
section
/-! SUPPORT. Memory: read after write, and every write keeps the canonical form. -/

namespace Sys2Proof.Machine

theorem lookupCell_insertCell_same (j : Nat) (w : Word) (cs : List (Nat × Word)) :
    lookupCell j (insertCell j w cs) = some w := by
  induction cs with
  | nil => simp [insertCell, lookupCell]
  | cons p rest ih =>
    obtain ⟨k, x⟩ := p
    unfold insertCell
    split
    · simp [lookupCell]
    · split
      · simp [lookupCell]
      · rw [lookupCell, if_neg (by omega)]
        exact ih

theorem lookupCell_insertCell_ne {j k : Nat} (h : k ≠ j) (w : Word) (cs : List (Nat × Word)) :
    lookupCell k (insertCell j w cs) = lookupCell k cs := by
  induction cs with
  | nil => simp [insertCell, lookupCell, h.symm]
  | cons p rest ih =>
    obtain ⟨l, x⟩ := p
    unfold insertCell
    split
    · simp [lookupCell, h.symm]
    · split
      · subst_vars
        simp [lookupCell, h.symm]
      · simp only [lookupCell, ih]

@[simp] theorem Memory.read_write_same (m : Memory) (j : Nat) (w : Word) : (m.write j w).read j = w := by
  simp [Memory.read, Memory.write, lookupCell_insertCell_same]

theorem Memory.read_write_ne (m : Memory) {j k : Nat} (h : k ≠ j) (w : Word) :
    (m.write j w).read k = m.read k := by
  simp [Memory.read, Memory.write, lookupCell_insertCell_ne h]

theorem Memory.read_write (m : Memory) (j k : Nat) (w : Word) :
    (m.write j w).read k = if k = j then w else m.read k := by
  split
  · subst_vars
    simp
  · exact m.read_write_ne ‹_› w

@[simp] theorem Memory.write_nwords (m : Memory) (j : Nat) (w : Word) : (m.write j w).nwords = m.nwords := rfl

/-- Listing a word of M keeps the indices rising. -/
theorem cellsRising_insertCell {lo hi j : Nat} (w : Word) {cs : List (Nat × Word)}
    (h : cellsRising lo hi cs = true) (hlo : lo ≤ j) (hhi : j < hi) :
    cellsRising lo hi (insertCell j w cs) = true := by
  induction cs generalizing lo with
  | nil => simp [insertCell, cellsRising, hlo, hhi]
  | cons p rest ih =>
    obtain ⟨k, x⟩ := p
    simp only [cellsRising, Bool.and_eq_true, decide_eq_true_eq] at h
    obtain ⟨⟨hk, hk'⟩, hr⟩ := h
    unfold insertCell
    split
    · simp only [cellsRising, Bool.and_eq_true, decide_eq_true_eq]
      exact ⟨⟨hlo, hhi⟩, ⟨by omega, hk'⟩, hr⟩
    · split
      · subst_vars
        simp only [cellsRising, Bool.and_eq_true, decide_eq_true_eq]
        exact ⟨⟨hlo, hhi⟩, hr⟩
      · simp only [cellsRising, Bool.and_eq_true, decide_eq_true_eq]
        exact ⟨⟨hk, hk'⟩, ih hr (by omega)⟩

/-- A write inside M keeps the canonical form. -/
theorem Memory.wf_write {m : Memory} {j : Nat} (w : Word) (h : m.wf = true) (hj : j < m.nwords) :
    (m.write j w).wf = true := by
  simp only [Memory.wf, Bool.and_eq_true, decide_eq_true_eq] at h ⊢
  exact ⟨h.1, cellsRising_insertCell w h.2 (Nat.zero_le j) hj⟩

/-- A memory in canonical form has at least two words. -/
theorem Memory.two_le_nwords {m : Memory} (h : m.wf = true) : 2 ≤ m.nwords := by
  simp only [Memory.wf, Bool.and_eq_true, decide_eq_true_eq] at h
  exact h.1

/-- No word below the bound is listed. -/
theorem lookupCell_eq_none_of_lt {lo hi j : Nat} {cs : List (Nat × Word)} (h : cellsRising lo hi cs = true)
    (hj : j < lo) : lookupCell j cs = none := by
  induction cs generalizing lo with
  | nil => rfl
  | cons p rest ih =>
    obtain ⟨k, x⟩ := p
    simp only [cellsRising, Bool.and_eq_true, decide_eq_true_eq] at h
    rw [lookupCell, if_neg (by omega)]
    exact ih h.2 (by omega)

/-- Two lists in canonical form that list the same words are the same list. -/
theorem cells_ext {lo hi : Nat} {cs ds : List (Nat × Word)} (hc : cellsRising lo hi cs = true)
    (hd : cellsRising lo hi ds = true) (h : ∀ j, lookupCell j cs = lookupCell j ds) : cs = ds := by
  induction cs generalizing lo ds with
  | nil =>
    cases ds with
    | nil => rfl
    | cons q rest =>
      have := h q.1
      simp [lookupCell] at this
  | cons p rest ih =>
    obtain ⟨k, x⟩ := p
    cases ds with
    | nil =>
      have := h k
      simp [lookupCell] at this
    | cons q rest' =>
      obtain ⟨l, y⟩ := q
      simp only [cellsRising, Bool.and_eq_true, decide_eq_true_eq] at hc hd
      have hkl : k = l := by
        rcases Nat.lt_trichotomy k l with hlt | heq | hgt
        · have := h k
          rw [lookupCell, if_pos rfl, lookupCell, if_neg (by omega),
            lookupCell_eq_none_of_lt hd.2 (by omega)] at this
          cases this
        · exact heq
        · have := h l
          rw [lookupCell, if_neg (by omega), lookupCell_eq_none_of_lt hc.2 (by omega), lookupCell,
            if_pos rfl] at this
          cases this
      subst hkl
      have hxy : x = y := by
        have := h k
        simpa [lookupCell] using this
      subst hxy
      rw [ih hc.2 hd.2 ?_]
      intro j
      by_cases hj : j = k
      · subst hj
        rw [lookupCell_eq_none_of_lt hc.2 (by omega), lookupCell_eq_none_of_lt hd.2 (by omega)]
      · have := h j
        rwa [lookupCell, if_neg (Ne.symm hj), lookupCell, if_neg (Ne.symm hj)] at this

/-- Two memories in canonical form, of one size and with the same words listed, are equal data. -/
theorem Memory.ext_of_wf {m n : Memory} (hm : m.wf = true) (hn : n.wf = true) (hsize : m.nwords = n.nwords)
    (h : ∀ j, lookupCell j m.cells = lookupCell j n.cells) : m = n := by
  obtain ⟨a, cs⟩ := m
  obtain ⟨b, ds⟩ := n
  simp only [Memory.wf, Bool.and_eq_true] at hm hn
  cases (hsize : a = b)
  rw [cells_ext hm.2 hn.2 h]

end Sys2Proof.Machine
end

