-- ==== Sys2Proof/Laws/Codec.lean ====
section
/-! SUPPORT. What the codec's shared operations can do: the checks, and the write of a field. -/

namespace Sys2Proof.Machine

/-- The field has bits in the next word exactly when it straddles (spec/41_codec.md R91). -/
theorem fieldHigh_pos_iff {W off : Nat} (hoff : off ≤ 63) : 0 < fieldHigh W off ↔ 64 < off + W := by
  unfold fieldHigh fieldLow
  omega

theorem fieldHigh_eq_zero_iff {W off : Nat} (hoff : off ≤ 63) : fieldHigh W off = 0 ↔ off + W ≤ 64 := by
  unfold fieldHigh fieldLow
  omega

/-- The checks pass exactly when the field lies in M (R90). -/
theorem fieldFault_eq_none_iff (m : Memory) (W i off : Nat) :
    fieldFault m W i off = none ↔
      off ≤ 63 ∧ i < m.nwords ∧ (64 < off + W → i + 1 < m.nwords) := by
  unfold fieldFault
  by_cases h : 63 < off
  · simp only [h, if_true, reduceCtorEq, false_iff, not_and]
    omega
  · have hp := fieldHigh_pos_iff (W := W) (off := off) (by omega)
    simp only [h, if_false, hp]
    split
    · simp only [reduceCtorEq, false_iff, not_and]
      omega
    · split
      · simp only [reduceCtorEq, false_iff, not_and]
        omega
      · simp only [true_iff]
        omega

/-- A check that fails names one of the two codes of execution (R162). -/
theorem fieldFault_some {m : Memory} {W i off : Nat} {code : FaultCode} (h : fieldFault m W i off = some code) :
    code = .badOffset ∧ 63 < off ∨
    code = .badIndex ∧ off ≤ 63 ∧ (m.nwords ≤ i ∨ 64 < off + W ∧ m.nwords ≤ i + 1) := by
  unfold fieldFault at h
  split at h
  · simp_all
  · have hp := fieldHigh_pos_iff (W := W) (off := off) (by omega)
    simp only [hp] at h
    split at h
    · simp_all
    · split at h
      · simp_all
      · cases h

@[simp] theorem writeField_nwords (m : Memory) (W i off : Nat) (p : Word) :
    (writeField m W i off p).nwords = m.nwords := by
  unfold writeField
  split <;> rfl

/-- Writing a field that lies in M keeps the canonical form. -/
theorem writeField_wf {m : Memory} {W i off : Nat} (p : Word) (h : m.wf = true)
    (hf : fieldFault m W i off = none) : (writeField m W i off p).wf = true := by
  obtain ⟨hoff, hi, hs⟩ := (fieldFault_eq_none_iff m W i off).mp hf
  unfold writeField
  split
  · exact Memory.wf_write _ h hi
  · next hne =>
    rw [fieldHigh_eq_zero_iff hoff] at hne
    exact Memory.wf_write _ (Memory.wf_write _ h hi) (hs (by omega))

/-- Writing a field leaves every word alone but word i and, when it straddles, word i + 1 (R44). -/
theorem writeField_read_ne (m : Memory) {W i off j : Nat} (p : Word) (hi : j ≠ i)
    (hs : fieldHigh W off = 0 ∨ j ≠ i + 1) : (writeField m W i off p).read j = m.read j := by
  unfold writeField
  split
  · exact Memory.read_write_ne _ hi _
  · next hne =>
    rw [Memory.read_write_ne _ (hs.resolve_left hne), Memory.read_write_ne _ hi]

end Sys2Proof.Machine
end

