-- ==== Sys2Proof/Laws/State.lean ====
section
/-! SUPPORT. One lemma per field per update of State, so that no later proof unfolds a record update. -/

namespace Sys2Proof.Machine

variable (s : State) (i j : Reg) (x : Value) (b : Bool) (code : FaultCode) (c : CmdWord) (r : Option HostReply)

/-! Reading a register after a write. -/

@[simp] theorem State.readV_writeV_same : (s.writeV i x).readV i = x := by
  simp [State.readV, State.writeV]

theorem State.readV_writeV_ne {i j : Reg} (h : i ≠ j) : (s.writeV i x).readV j = s.readV j := by
  have h' : i.val ≠ j.val := fun e => h (Fin.ext e)
  simp [State.readV, State.writeV, h']

@[simp] theorem State.readV_resetUnit : s.resetUnit.readV i = 0 := by
  simp [State.readV, State.resetUnit]

@[simp] theorem State.readV_reset : State.reset.readV i = 0 := by
  simp [State.readV, State.reset]

/-! `writeV`. -/

@[simp] theorem State.writeV_status : (s.writeV i x).status = s.status := rfl
@[simp] theorem State.writeV_fcmd : (s.writeV i x).fcmd = s.fcmd := rfl
@[simp] theorem State.writeV_mem : (s.writeV i x).mem = s.mem := rfl
@[simp] theorem State.writeV_port : (s.writeV i x).port = s.port := rfl
@[simp] theorem State.writeV_reply : (s.writeV i x).reply = s.reply := rfl

/-! `writeC`. -/

@[simp] theorem State.writeC_v : (s.writeC b).v = s.v := rfl
@[simp] theorem State.writeC_readV : (s.writeC b).readV i = s.readV i := rfl
@[simp] theorem State.writeC_c : (s.writeC b).status.c = b := rfl
@[simp] theorem State.writeC_f : (s.writeC b).status.f = s.status.f := rfl
@[simp] theorem State.writeC_fcode : (s.writeC b).status.fcode = s.status.fcode := rfl
@[simp] theorem State.writeC_fcmd : (s.writeC b).fcmd = s.fcmd := rfl
@[simp] theorem State.writeC_mem : (s.writeC b).mem = s.mem := rfl
@[simp] theorem State.writeC_port : (s.writeC b).port = s.port := rfl
@[simp] theorem State.writeC_reply : (s.writeC b).reply = s.reply := rfl

/-! `takeFault`. -/

@[simp] theorem State.takeFault_v : (s.takeFault code c).v = s.v := rfl
@[simp] theorem State.takeFault_readV : (s.takeFault code c).readV i = s.readV i := rfl
@[simp] theorem State.takeFault_c : (s.takeFault code c).status.c = s.status.c := rfl
@[simp] theorem State.takeFault_f : (s.takeFault code c).status.f = true := rfl
@[simp] theorem State.takeFault_fcode : (s.takeFault code c).status.fcode = code.num := rfl
@[simp] theorem State.takeFault_fcmd : (s.takeFault code c).fcmd = c := rfl
@[simp] theorem State.takeFault_mem : (s.takeFault code c).mem = s.mem := rfl
@[simp] theorem State.takeFault_port : (s.takeFault code c).port = s.port := rfl
@[simp] theorem State.takeFault_reply : (s.takeFault code c).reply = s.reply := rfl

/-! `clearFault`. -/

@[simp] theorem State.clearFault_v : s.clearFault.v = s.v := rfl
@[simp] theorem State.clearFault_readV : s.clearFault.readV i = s.readV i := rfl
@[simp] theorem State.clearFault_c : s.clearFault.status.c = s.status.c := rfl
@[simp] theorem State.clearFault_f : s.clearFault.status.f = false := rfl
@[simp] theorem State.clearFault_fcode : s.clearFault.status.fcode = 0 := rfl
@[simp] theorem State.clearFault_fcmd : s.clearFault.fcmd = 0 := rfl
@[simp] theorem State.clearFault_mem : s.clearFault.mem = s.mem := rfl
@[simp] theorem State.clearFault_port : s.clearFault.port = s.port := rfl
@[simp] theorem State.clearFault_reply : s.clearFault.reply = s.reply := rfl

/-! `resetUnit`. -/

@[simp] theorem State.resetUnit_status : s.resetUnit.status = Status.zero := rfl
@[simp] theorem State.resetUnit_fcmd : s.resetUnit.fcmd = 0 := rfl
@[simp] theorem State.resetUnit_mem : s.resetUnit.mem = s.mem := rfl
@[simp] theorem State.resetUnit_port : s.resetUnit.port = s.port := rfl
@[simp] theorem State.resetUnit_reply : s.resetUnit.reply = s.reply := rfl

/-! `answer`. -/

@[simp] theorem State.answer_v : (s.answer r).v = s.v := rfl
@[simp] theorem State.answer_readV : (s.answer r).readV i = s.readV i := rfl
@[simp] theorem State.answer_status : (s.answer r).status = s.status := rfl
@[simp] theorem State.answer_fcmd : (s.answer r).fcmd = s.fcmd := rfl
@[simp] theorem State.answer_mem : (s.answer r).mem = s.mem := rfl
@[simp] theorem State.answer_port : (s.answer r).port = s.port := rfl
@[simp] theorem State.answer_reply : (s.answer r).reply = r := rfl

/-! `issueNext`. -/

@[simp] theorem State.issueNext_port : (s.issueNext c).port = .issue c :: s.port := rfl
@[simp] theorem State.issueNext_status : (s.issueNext c).status = s.status := rfl
@[simp] theorem State.issueNext_mem : (s.issueNext c).mem = s.mem := rfl
@[simp] theorem State.issueNext_readV : (s.issueNext c).readV i = s.readV i := rfl

end Sys2Proof.Machine
end

