-- ==== Sys2Proof/Laws/Exec.lean ====
section
/-! SUPPORT. What a command, a transaction and a step can do, said once. -/

namespace Sys2Proof.Machine

/-- Everything LDF can do: fault entry with its own word, or a write of its destination. -/
theorem execLdf_cases (ty : Ty) (rd ra rb : Reg) (s : State) :
    (∃ code, fieldFault s.mem ty.width (wordIndex (s.readV ra)) (bitOffset (s.readV rb)) = some code ∧
      execLdf ty rd ra rb s = .next (s.takeFault code (encode (.ldf ty rd ra rb)))) ∨
    (fieldFault s.mem ty.width (wordIndex (s.readV ra)) (bitOffset (s.readV rb)) = none ∧
      ∃ x, execLdf ty rd ra rb s = .next (s.writeV rd x)) := by
  unfold execLdf
  split
  · exact .inl ⟨_, by assumption, rfl⟩
  · exact .inr ⟨by assumption, _, rfl⟩

/-- Everything STF can do: fault entry with its own word, or a write of the field. -/
theorem execStf_cases (ty : Ty) (rs ra rb : Reg) (s : State) :
    (∃ code, fieldFault s.mem ty.width (wordIndex (s.readV ra)) (bitOffset (s.readV rb)) = some code ∧
      execStf ty rs ra rb s = .next (s.takeFault code (encode (.stf ty rs ra rb)))) ∨
    (fieldFault s.mem ty.width (wordIndex (s.readV ra)) (bitOffset (s.readV rb)) = none ∧
      execStf ty rs ra rb s =
        .next { s with
          mem := writeField s.mem ty.width (wordIndex (s.readV ra)) (bitOffset (s.readV rb))
            (storedPattern ty.width (s.readV rs)) }) := by
  unfold execStf
  split
  · exact .inl ⟨_, by assumption, rfl⟩
  · exact .inr ⟨by assumption, rfl⟩

/-- Everything a command can do: write its destination, the carry with it for ADD and SUB; enter a fault with
its own word, for LDF and STF; or, for STF, write a memory of the same size that is canonical if the old one
was. -/
theorem exec_cases (i : Instr) (s : State) :
    (∃ x, i.op ≠ 3 ∧ exec i s = .next (s.writeV i.regFields.1 x)) ∨
    (∃ x c, (i.op = 4 ∨ i.op = 5) ∧ exec i s = .next ((s.writeV i.regFields.1 x).writeC c)) ∨
    (∃ code, (i.op = 2 ∨ i.op = 3) ∧ (code = .badOffset ∨ code = .badIndex) ∧
      exec i s = .next (s.takeFault code (encode i))) ∨
    (∃ m, i.op = 3 ∧ m.nwords = s.mem.nwords ∧ (s.mem.wf = true → m.wf = true) ∧
      exec i s = .next { s with mem := m }) := by
  cases i with
  | norm ty rd ra => exact .inl ⟨_, by simp [Instr.op], rfl⟩
  | cmp ty rd ra rb => exact .inl ⟨_, by simp [Instr.op], rfl⟩
  | shl ty rd ra rb => exact .inl ⟨_, by simp [Instr.op], rfl⟩
  | shr ty rd ra rb => exact .inl ⟨_, by simp [Instr.op], rfl⟩
  | shrz ty rd ra rb => exact .inl ⟨_, by simp [Instr.op], rfl⟩
  | add ty rd ra rb => exact .inr (.inl ⟨_, _, .inl rfl, rfl⟩)
  | sub ty rd ra rb => exact .inr (.inl ⟨_, _, .inr rfl, rfl⟩)
  | ldf ty rd ra rb =>
    obtain ⟨code, hc, h⟩ | ⟨-, x, h⟩ := execLdf_cases ty rd ra rb s
    · have := fieldFault_some hc
      exact .inr (.inr (.inl ⟨code, .inl rfl, by tauto, h⟩))
    · exact .inl ⟨x, by simp [Instr.op], h⟩
  | stf ty rs ra rb =>
    obtain ⟨code, hc, h⟩ | ⟨hn, h⟩ := execStf_cases ty rs ra rb s
    · have := fieldFault_some hc
      exact .inr (.inr (.inl ⟨code, .inr rfl, by tauto, h⟩))
    · exact .inr (.inr (.inr ⟨_, rfl, writeField_nwords .., fun hw => writeField_wf _ hw hn, h⟩))

/-- A step with nothing at the port. -/
theorem step_nil {s : State} (h : s.port = []) : step s = .next s := by
  unfold step stepPort
  rw [h]

/-- A step with a transaction at the port. -/
theorem step_cons {s : State} {t : HostTxn} {rest : List HostTxn} (h : s.port = t :: rest) :
    step s = transact t { s with port := rest } := by
  unfold step stepPort
  rw [h]

/-- A machine's run takes a step that answers next. -/
theorem run_succ_of_next (M : Host.Core) {k : Nat} {s t : M.State} (h : M.step s = .next t) :
    M.run (k + 1) s = M.run k t := by
  simp [Host.Core.run, h]

/-- The same of this machine, in its own names. -/
theorem core_run_succ {k : Nat} {s t : State} (h : step s = .next t) :
    Sys2Proof.core.run (k + 1) s = Sys2Proof.core.run k t := run_succ_of_next Sys2Proof.core h

theorem core_run_zero (s : State) : Sys2Proof.core.run 0 s = .next s := rfl

end Sys2Proof.Machine
end

