-- ==== Sys2Proof/Laws/Operands.lean ====
section
/-! SUPPORT. Small facts about the operand helpers: patterns, halves of a register, masks. -/

namespace Sys2Proof

theorem twoPow_pos (W : Nat) : 0 < twoPow W := by
  unfold twoPow
  exact_mod_cast Nat.two_pow_pos W

/-- Reading a pattern is bounded. -/
theorem pattern_nonneg (W : Nat) (x : Int) : 0 ≤ pattern W x := Int.emod_nonneg _ (twoPow_pos W).ne'

theorem pattern_lt (W : Nat) (x : Int) : pattern W x < twoPow W := Int.emod_lt_of_pos _ (twoPow_pos W)

/-- A pattern does not depend on a multiple of 2^W. -/
theorem pattern_congr {W : Nat} {x y : Int} (h : x % twoPow W = y % twoPow W) : pattern W x = pattern W y := h

/-- What normalising depends on: only the pattern. -/
theorem norm_congr {ty : Ty} {x y : Int} (h : x % twoPow ty.width = y % twoPow ty.width) :
    norm ty x = norm ty y := by
  unfold norm
  rw [pattern_congr h]

/-- A result depends only on its pattern. -/
theorem canon_congr {ty : Ty} {x y : Int} (h : x % twoPow ty.width = y % twoPow ty.width) :
    canon ty x = canon ty y := by
  unfold canon
  rw [norm_congr h]

theorem Value.lo_toNat (x : Value) : x.lo.toNat = x.toNat % 2 ^ 64 := by
  simp [Value.lo, BitVec.extractLsb'_toNat]

theorem Value.hi_toNat (x : Value) : x.hi.toNat = x.toNat / 2 ^ 64 := by
  have h := x.isLt
  simp only [Value.hi, BitVec.extractLsb'_toNat, Nat.shiftRight_eq_div_pow]
  exact Nat.mod_eq_of_lt (by omega)

theorem joinWords_toNat (h l : Word) : (joinWords h l).toNat = h.toNat * 2 ^ 64 + l.toNat := by
  have := l.isLt
  simp only [joinWords, BitVec.toNat_append]
  rw [← Nat.shiftLeft_add_eq_or_of_lt this, Nat.shiftLeft_eq]

/-- A register is the join of its halves. -/
@[simp] theorem joinWords_hi_lo (x : Value) : joinWords x.hi x.lo = x := by
  apply BitVec.eq_of_toNat_eq
  rw [joinWords_toNat, Value.hi_toNat, Value.lo_toNat]
  omega

@[simp] theorem joinWords_lo (h l : Word) : (joinWords h l).lo = l := by
  apply BitVec.eq_of_toNat_eq
  have := l.isLt
  rw [Value.lo_toNat, joinWords_toNat]
  omega

@[simp] theorem joinWords_hi (h l : Word) : (joinWords h l).hi = h := by
  apply BitVec.eq_of_toNat_eq
  have := l.isLt
  rw [Value.hi_toNat, joinWords_toNat]
  omega

/-- The bits of a mask. -/
theorem mask_getLsbD {n : Nat} (hn : n ≤ 64) (k : Nat) : (mask n).getLsbD k = decide (k < n) := by
  have hlt : 2 ^ n - 1 < 2 ^ 64 := by
    have := Nat.pow_le_pow_right (show 0 < 2 by decide) hn
    have := Nat.two_pow_pos n
    omega
  rw [mask, BitVec.getLsbD_ofNat, Nat.testBit_two_pow_sub_one]
  by_cases h : k < n
  · simp [h, show k < 64 by omega]
  · simp [h]

end Sys2Proof
end

