-- ==== Sys2Proof/Laws/PerInstr.lean ====
section
/-! SUPPORT. The family EncodeFields: the fields of a well-formed command's word are those of the command
(spec/30_encoding.md R60, R61). -/

namespace Sys2Proof.Laws.EncodeFields

/-- Every field of the word of a well-formed command holds what R60 puts there. -/
def Statement (i : Instr) : Prop :=
  i.wellFormed = true →
    bits (encode i) 31 28 = i.op ∧ tyOf (encode i) = i.ty ∧
    bits (encode i) 19 16 = i.regFields.1.val ∧ bits (encode i) 15 12 = i.regFields.2.1.val ∧
    bits (encode i) 11 8 = i.regFields.2.2.val ∧ bits (encode i) 7 0 = 0

/-- The fields of a word built as R60 builds it. -/
theorem fields_of_sum {w : CmdWord} {op s wm1 rd ra rb : Nat} (hop : op < 16) (hs : s < 2) (hw : wm1 < 128)
    (hrd : rd < 16) (hra : ra < 16) (hrb : rb < 16)
    (h : w = BitVec.ofNat 32 (2 ^ 28 * op + 2 ^ 27 * s + 2 ^ 20 * wm1 + 2 ^ 16 * rd + 2 ^ 12 * ra + 2 ^ 8 * rb)) :
    bits w 31 28 = op ∧ bits w 27 27 = s ∧ bits w 26 20 = wm1 ∧ bits w 19 16 = rd ∧ bits w 15 12 = ra ∧
      bits w 11 8 = rb ∧ bits w 7 0 = 0 := by
  subst h
  simp only [bits, BitVec.toNat_ofNat]
  norm_num
  omega

theorem op_lt (i : Instr) : i.op < 16 := by
  cases i <;> simp [Instr.op]

theorem of_legal {i : Instr} (h1 : 1 ≤ i.ty.width) (h2 : i.ty.width ≤ 128) :
    bits (encode i) 31 28 = i.op ∧ tyOf (encode i) = i.ty ∧
    bits (encode i) 19 16 = i.regFields.1.val ∧ bits (encode i) 15 12 = i.regFields.2.1.val ∧
    bits (encode i) 11 8 = i.regFields.2.2.val ∧ bits (encode i) 7 0 = 0 := by
  obtain ⟨a, b, c, d, e, f, g⟩ := fields_of_sum (w := encode i) (op_lt i) (Bool.toNat_lt i.ty.signed)
    (show i.ty.width - 1 < 128 by omega) i.regFields.1.isLt i.regFields.2.1.isLt i.regFields.2.2.isLt rfl
  refine ⟨a, ?_, d, e, f, g⟩
  unfold tyOf
  rw [b, c]
  rw [Nat.sub_add_cancel h1]
  cases i.ty with
  | mk sg W => cases sg <;> rfl

theorem width_of_value {t : Ty} (h : t.legalValue = true) : 1 ≤ t.width ∧ t.width ≤ 128 := by
  simp only [Ty.legalValue, Bool.or_eq_true, Bool.and_eq_true, decide_eq_true_eq] at h
  omega

theorem width_of_field {t : Ty} (h : t.legalField = true) : 1 ≤ t.width ∧ t.width ≤ 128 := by
  simp only [Ty.legalField, Bool.and_eq_true, decide_eq_true_eq] at h
  omega

theorem norm (ty : Ty) (rd ra : Reg) : Statement (.norm ty rd ra) := fun h =>
  of_legal (width_of_value h).1 (width_of_value h).2

theorem ldf (ty : Ty) (rd ra rb : Reg) : Statement (.ldf ty rd ra rb) := fun h =>
  of_legal (width_of_field h).1 (width_of_field h).2

theorem stf (ty : Ty) (rs ra rb : Reg) : Statement (.stf ty rs ra rb) := fun h =>
  of_legal (width_of_field h).1 (width_of_field h).2

theorem add (ty : Ty) (rd ra rb : Reg) : Statement (.add ty rd ra rb) := fun h =>
  of_legal (width_of_value h).1 (width_of_value h).2

theorem sub (ty : Ty) (rd ra rb : Reg) : Statement (.sub ty rd ra rb) := fun h =>
  of_legal (width_of_value h).1 (width_of_value h).2

theorem cmp (ty : Ty) (rd ra rb : Reg) : Statement (.cmp ty rd ra rb) := fun h =>
  of_legal (width_of_value h).1 (width_of_value h).2

theorem shl (ty : Ty) (rd ra rb : Reg) : Statement (.shl ty rd ra rb) := fun h =>
  of_legal (width_of_value h).1 (width_of_value h).2

theorem shr (ty : Ty) (rd ra rb : Reg) : Statement (.shr ty rd ra rb) := fun h =>
  of_legal (width_of_value h).1 (width_of_value h).2

theorem shrz (ty : Ty) (rd ra rb : Reg) : Statement (.shrz ty rd ra rb) := fun h =>
  of_legal (width_of_value h).1 (width_of_value h).2

end Sys2Proof.Laws.EncodeFields
end

