-- ==== Sys2Proof/Tests/Slice0.lean ====
section
/-! SUPPORT. The model's own tests: ill-formed terms, decoding, one step of each command against the spec's
worked examples and vectors (95_test_vectors.md, named in each comment), and a witness for every statement
with hypotheses. -/

namespace Sys2Proof.Tests

open Sys2Proof Sys2Proof.Machine

/-! ## Helpers -/

/-- A state with the given registers and first words of M, NWORDS = 4 as in the spec's vectors. -/
def st (vs : List (Reg × Value)) (ms : List Word) : State :=
  { State.reset with
    v := vs.foldl (fun v p => v.set p.1.val p.2 p.1.isLt) State.reset.v,
    mem := { nwords := 4, cells := ms.zipIdx.map fun p => (p.2, p.1) } }

/-- A halted state. -/
def halted : State := (st [] []).takeFault .illegalOpcode 0

def outReg (r : Reg) : Host.Outcome State Fault Refusal → Option Value
  | .next s => some (s.readV r)
  | _ => none

def outC : Host.Outcome State Fault Refusal → Option Bool
  | .next s => some s.status.c
  | _ => none

/-- STATUS and FCMD. -/
def outFault : Host.Outcome State Fault Refusal → Option (BitVec 32 × CmdWord)
  | .next s => some (s.status.word, s.fcmd)
  | _ => none

def outWords (i j : Nat) : Host.Outcome State Fault Refusal → Option (Word × Word)
  | .next s => some (s.mem.read i, s.mem.read j)
  | _ => none

def outReply : Host.Outcome State Fault Refusal → Option HostReply
  | .next s => s.reply
  | _ => none

/-! ## Ill-formed terms are refused, legal ones at the edges are not (30_encoding.md R62) -/

theorem test_wf_zero_width : (Instr.add ⟨true, 0⟩ 3 1 2).wellFormed = false := by decide
theorem test_wf_width_65 : (Instr.norm ⟨false, 65⟩ 3 1).wellFormed = false := by decide
theorem test_wf_width_127 : (Instr.shl ⟨true, 127⟩ 3 1 2).wellFormed = false := by decide
theorem test_wf_width_129 : (Instr.cmp ⟨true, 129⟩ 3 1 2).wellFormed = false := by decide
theorem test_wf_sub_65 : (Instr.sub ⟨true, 65⟩ 3 1 2).wellFormed = false := by decide
theorem test_wf_shr_100 : (Instr.shr ⟨true, 100⟩ 3 1 2).wellFormed = false := by decide
theorem test_wf_shrz_0 : (Instr.shrz ⟨false, 0⟩ 3 1 2).wellFormed = false := by decide
theorem test_wf_ldf_128 : (Instr.ldf ⟨true, 128⟩ 4 2 3).wellFormed = false := by decide
theorem test_wf_stf_65 : (Instr.stf ⟨false, 65⟩ 1 2 3).wellFormed = false := by decide
theorem test_wf_edges : (Instr.add ⟨true, 1⟩ 3 1 2).wellFormed = true ∧
    (Instr.add ⟨true, 64⟩ 3 1 2).wellFormed = true ∧ (Instr.add ⟨false, 128⟩ 3 1 2).wellFormed = true ∧
    (Instr.ldf ⟨true, 64⟩ 4 2 3).wellFormed = true := by decide

/-! ## Decoding: words written out bit by bit from R60 and R65, OP S WM1 RD RA RB Z -/

theorem test_decode_norm : decode 0b0001_1_0001011_0001_0010_0000_00000000 = .ok (.norm ⟨true, 12⟩ 1 2) := by decide
theorem test_decode_ldf : decode 0b0010_1_0001011_0100_0010_0011_00000000 = .ok (.ldf ⟨true, 12⟩ 4 2 3) := by decide
theorem test_decode_stf : decode 0b0011_0_0111111_0001_0010_0011_00000000 = .ok (.stf ⟨false, 64⟩ 1 2 3) := by decide
theorem test_decode_add : decode 0b0100_1_1111111_0011_0001_0010_00000000 = .ok (.add ⟨true, 128⟩ 3 1 2) := by decide
theorem test_decode_sub : decode 0b0101_0_1111111_0100_0011_0010_00000000 = .ok (.sub ⟨false, 128⟩ 4 3 2) := by decide
theorem test_decode_cmp : decode 0b0110_1_0111111_0101_0001_0010_00000000 = .ok (.cmp ⟨true, 64⟩ 5 1 2) := by decide
theorem test_decode_shl : decode 0b0111_1_0000000_0010_0001_0011_00000000 = .ok (.shl ⟨true, 1⟩ 2 1 3) := by decide
theorem test_decode_shr : decode 0b1000_0_0001011_0010_0001_0011_00000000 = .ok (.shr ⟨false, 12⟩ 2 1 3) := by decide
theorem test_decode_shrz : decode 0b1001_1_0111111_1111_1110_1101_00000000 = .ok (.shrz ⟨true, 64⟩ 15 14 13) := by decide

/-- The fault rows E1 to E11 of 95_test_vectors.md L2.6, with the order of R66. -/
theorem test_decode_faults :
    [0x00000000, 0xA0000000, 0xF00000FF].map (fun w => decode w) =
      [.error .illegalOpcode, .error .illegalOpcode, .error .illegalOpcode] ∧
    [0x4FF31201, 0x1FF12300, 0x1E312300, 0x6E312310].map (fun w => decode w) =
      [.error .reservedField, .error .reservedField, .error .reservedField, .error .reservedField] ∧
    [0x4C031200, 0x57E31200, 0x2FF42300, 0x34042300].map (fun w => decode w) =
      [.error .illegalWidth, .error .illegalWidth, .error .illegalWidth, .error .illegalWidth] := by decide

/-- R68's example, encoded. -/
theorem test_encode_add : encode (.add ⟨true, 128⟩ 3 1 2) = 0x4FF31200 := by decide
theorem test_text_add : (Instr.add ⟨true, 128⟩ 3 1 2).text = "ADD.s128 v3, v1, v2" := by decide
theorem test_table_word : decodeTableWord 32 0x38B12300 = some (.stf ⟨true, 12⟩ 1 2 3) := by decide

/-! ## One step of each command -/

/-- N5: bits 127:12 of the source are ignored. -/
theorem test_norm_s12 : outReg 1 (exec (.norm ⟨true, 12⟩ 1 2) (st [(2, 0x123400000000ABCD0800)] [])) =
    some 0xFFFFFFFFFFFFFFFFFFFFFFFFFFFFF800 := by decide

/-- N13: RD = RA. -/
theorem test_norm_alias : outReg 2 (exec (.norm ⟨true, 12⟩ 2 2) (st [(2, 0xFFF)] [])) =
    some 0xFFFFFFFFFFFFFFFFFFFFFFFFFFFFFFFF := by decide

/-- F15: a 64-bit field at offset 63, 1 bit from word 0 and 63 from word 1. -/
theorem test_ldf_straddle :
    outReg 4 (exec (.ldf ⟨true, 64⟩ 4 2 3) (st [(3, 63)] [0x0123456789ABCDEF, 0xFEDCBA9876543210])) =
      some 0xFFFFFFFFFFFFFFFFFDB97530ECA86420 := by decide

/-- F18 and F21: a straddle past the last word; BAD_OFFSET wins over BAD_INDEX. -/
theorem test_ldf_faults :
    outFault (exec (.ldf ⟨true, 12⟩ 4 2 3) (st [(2, 3), (3, 53)] [])) = some (0x52, 0x28B42300) ∧
    outFault (exec (.ldf ⟨true, 12⟩ 4 2 3) (st [(2, 9), (3, 64)] [])) = some (0x42, 0x28B42300) := by decide

/-- T2: the 4/8 split into ones, the outside bits kept. -/
theorem test_stf_split : outWords 0 1 (exec (.stf ⟨true, 12⟩ 1 2 3)
    (st [(1, 0xFFFFFFFFFFFFFFFFFFFFFFFFFFFFFABC), (3, 60)] [0xFFFFFFFFFFFFFFFF, 0xFFFFFFFFFFFFFFFF])) =
      some (0xCFFFFFFFFFFFFFFF, 0xFFFFFFFFFFFFFFAB) := by decide

/-- F22's index with T's command: 2^64 - 1 with a straddle does not wrap; no word is written. -/
theorem test_stf_no_wrap :
    outFault (exec (.stf ⟨true, 12⟩ 1 2 3) (st [(1, 0xABC), (2, 0xFFFFFFFFFFFFFFFF), (3, 60)] [7, 8])) =
      some (0x52, 0x38B12300) ∧
    outWords 0 1 (exec (.stf ⟨true, 12⟩ 1 2 3) (st [(1, 0xABC), (2, 0xFFFFFFFFFFFFFFFF), (3, 60)] [7, 8])) =
      some (7, 8) := by decide

/-- A8: exactly one top bit set, the magnitudes sum to 2^63. -/
theorem test_add_carry : outReg 3 (exec (.add ⟨true, 128⟩ 3 1 2)
      (st [(1, 0x8000000000000001), (2, 0x7FFFFFFFFFFFFFFF)] [])) = some 0x10000000000000000 ∧
    outC (exec (.add ⟨true, 128⟩ 3 1 2) (st [(1, 0x8000000000000001), (2, 0x7FFFFFFFFFFFFFFF)] [])) =
      some true := by decide

/-- A12: 2047 + 1 at 12 bits, C = 0. -/
theorem test_add_s12 : outReg 3 (exec (.add ⟨true, 12⟩ 3 1 2) (st [(1, 0x7FF), (2, 1)] [])) =
      some 0xFFFFFFFFFFFFFFFFFFFFFFFFFFFFF800 ∧
    outC (exec (.add ⟨true, 12⟩ 3 1 2) ((st [(1, 0x7FF), (2, 1)] []).writeC true)) = some false := by decide

/-- A22: equal top bits, the magnitudes borrow. -/
theorem test_sub_borrow : outReg 4 (exec (.sub ⟨true, 128⟩ 4 3 2)
      (st [(3, 0x8000000000000001), (2, 0x8000000000000002)] [])) = some 0xFFFFFFFFFFFFFFFFFFFFFFFFFFFFFFFF ∧
    outC (exec (.sub ⟨true, 128⟩ 4 3 2) (st [(3, 0x8000000000000001), (2, 0x8000000000000002)] [])) =
      some true := by decide

/-- A25: -2048 - 1 at 12 bits. -/
theorem test_sub_s12 : outReg 4 (exec (.sub ⟨true, 12⟩ 4 3 2)
    (st [(3, 0xFFFFFFFFFFFFFFFFFFFFFFFFFFFFF800), (2, 1)] [])) = some 0x7FF := by decide

/-- K1: bit 63 of the low word is magnitude (90_conflicts.md C1). -/
theorem test_cmp_low_word : outReg 5 (exec (.cmp ⟨true, 128⟩ 5 1 2) (st [(1, 0x8000000000000000), (2, 1)] [])) =
    some 1 := by decide

/-- K3 and K4: the same bits, signed and unsigned. -/
theorem test_cmp_signs :
    outReg 5 (exec (.cmp ⟨true, 128⟩ 5 1 2)
      (st [(1, 0x80000000000000000000000000000000), (2, 0x7FFFFFFFFFFFFFFFFFFFFFFFFFFFFFFF)] [])) =
      some 0xFFFFFFFFFFFFFFFFFFFFFFFFFFFFFFFF ∧
    outReg 5 (exec (.cmp ⟨false, 128⟩ 5 1 2)
      (st [(1, 0x80000000000000000000000000000000), (2, 0x7FFFFFFFFFFFFFFFFFFFFFFFFFFFFFFF)] [])) = some 1 := by
  decide

/-- S5: a negative count is the sign-extending right shift. -/
theorem test_shl_negative : outReg 2 (exec (.shl ⟨true, 128⟩ 2 1 3)
    (st [(1, 0x80000000000000000000000000000001), (3, 0xFFFFFFFFFFFFFFFFFFFFFFFFFFFFFFFF)] [])) =
      some 0xC0000000000000000000000000000000 := by decide

/-- S31 and S20: bits 127:32 of the count are ignored; c = -2^31 at W = 12 is k = 8. -/
theorem test_shl_s12 :
    outReg 2 (exec (.shl ⟨true, 12⟩ 2 1 3) (st [(1, 1), (3, 0xFFFF0000000100000001)] [])) = some 2 ∧
    outReg 2 (exec (.shl ⟨true, 12⟩ 2 1 3) (st [(1, 1), (3, 0x80000000)] [])) = some 0 := by decide

/-- S9: the high word's bit 0 crosses into the low word. -/
theorem test_shr_crosses : outReg 2 (exec (.shr ⟨true, 128⟩ 2 1 3) (st [(1, 0x10000000000000000), (3, 1)] [])) =
    some 0x8000000000000000 := by decide

/-- S11: unsigned, zero fill (90_conflicts.md C4). -/
theorem test_shr_unsigned : outReg 2 (exec (.shr ⟨false, 128⟩ 2 1 3)
    (st [(1, 0x80000000000000000000000000000000), (3, 1)] [])) =
      some 0x40000000000000000000000000000000 := by decide

/-- S24: on the 12-bit pattern, so -1 by 1 is 2047. -/
theorem test_shrz_s12 : outReg 2 (exec (.shrz ⟨true, 12⟩ 2 1 3) (st [(1, 0xFFF), (3, 1)] [])) = some 0x7FF := by
  decide

/-- S26: a negative count shifts left. -/
theorem test_shrz_negative : outReg 2 (exec (.shrz ⟨true, 12⟩ 2 1 3) (st [(1, 0xFFC), (3, 0xFFFFFFFF)] [])) =
    some 0xFFFFFFFFFFFFFFFFFFFFFFFFFFFFFFF8 := by decide

/-! ## The host's port -/

/-- P5 step 2: the illegal word is accepted and faults. -/
theorem test_issue_illegal :
    outFault (step (State.reset.withFetchWord 32 0x00000000)) = some (0x12, 0) ∧
    outReply (step (State.reset.withFetchWord 32 0x00000000)) = some .accepted := by decide

/-- P5 step 3: while halted a legal word is rejected and V3 stays. -/
theorem test_issue_rejected :
    outReply (step (halted.withFetchWord 32 0x48B43200)) = some .rejected ∧
    outReg 4 (step (halted.withFetchWord 32 0x48B43200)) = some 0 := by decide

/-- The first command after reset runs. -/
theorem test_first_command :
    outReg 5 (step (State.reset.withFetchWord 32 0x6FF51200)) = some 0 ∧
    outReply (step (State.reset.withFetchWord 32 0x6FF51200)) = some .accepted := by decide

/-! ## Witnesses: for each statement with hypotheses, values that meet them together -/

theorem wit_DecodeOfEncode : (Instr.stf ⟨false, 64⟩ 15 0 7).wellFormed = true := by decide

theorem wit_EncodeOfDecode : decode 0x9BF21300 = .ok (.shrz ⟨true, 64⟩ 2 1 3) := by decide

/-- One word for each clause of DecodeChecksInOrder, at the edges of the ranges: OP 0 and 10; Z and NORM's RB;
WM1 64, 126 and, for LDF, 127; WM1 63 and 127. -/
theorem wit_DecodeChecksInOrder :
    (BitVec.extractLsb' 28 4 (0x00000000 : CmdWord)).toNat = 0 ∧
    (BitVec.extractLsb' 28 4 (0xA0000000 : CmdWord)).toNat = 10 ∧
    (BitVec.extractLsb' 0 8 (0x4FF31201 : CmdWord)).toNat = 1 ∧
    (BitVec.extractLsb' 8 4 (0x1FF12300 : CmdWord)).toNat = 3 ∧
    (BitVec.extractLsb' 20 7 (0x4C031200 : CmdWord)).toNat = 64 ∧
    (BitVec.extractLsb' 20 7 (0x57E31200 : CmdWord)).toNat = 126 ∧
    (BitVec.extractLsb' 20 7 (0x2FF42300 : CmdWord)).toNat = 127 ∧
    (BitVec.extractLsb' 20 7 (0x9BF21300 : CmdWord)).toNat = 63 ∧
    (BitVec.extractLsb' 20 7 (0x1FF12000 : CmdWord)).toNat = 127 := by decide

theorem wit_PseudoInstructions : Ty.legalValue ⟨true, 12⟩ = true ∧ (st [(2, 1)] []).readV 2 = 1 ∧
    (∀ W ∈ [1, 64, 128], 1 ≤ W ∧ (W ≤ 64 ∨ W = 128)) := by decide

theorem wit_StepRunsDecodedCommand :
    (State.reset.issueNext 0x4FF31200).port = .issue 0x4FF31200 :: [] ∧
    (State.reset.issueNext 0x4FF31200).status.f = false ∧
    decode 0x4FF31200 = .ok (.add ⟨true, 128⟩ 3 1 2) := by decide

theorem wit_UndecodableWordTakesFault :
    (State.reset.issueNext 0x4C031200).port = .issue 0x4C031200 :: [] ∧
    (State.reset.issueNext 0x4C031200).status.f = false ∧ decode 0x4C031200 = .error .illegalWidth := by decide

theorem wit_HaltedUnitRejectsIssue : halted.status.f = true ∧ 3 < halted.mem.nwords ∧
    ∀ x ∈ [HostTxn.issue 0x4FF31200, .rdv 15, .wrv 0 1, .rdm 3, .wrm 3 9, .rdstatus, .rdfcmd],
      { halted with port := [x] }.port = x :: [] ∧ { halted with port := [x] }.status.f = true := by decide

theorem wit_HostTransactionEffects : 3 < (st [] []).mem.nwords ∧
    ∀ x ∈ [HostTxn.rdv 15, .wrv 0 1, .rdm 3, .wrm 3 9, .rdstatus, .rdfcmd, .clear, .reset],
      { st [] [] with port := [x] }.port = x :: [] := by decide

theorem wit_HostIndexOutOfRangeRefused : (st [] []).mem.nwords ≤ 4 ∧
    { st [] [] with port := [.rdm 4] }.port = .rdm 4 :: [] ∧
    { st [] [] with port := [.wrm 4 9] }.port = .wrm 4 9 :: [] := by decide

theorem wit_IdleStepHoldsState : State.reset.port = [] := by decide

theorem wit_ClearThenIssueExecutes :
    { halted with port := [.clear, .issue 0x48B43200] }.port = .clear :: .issue 0x48B43200 :: [] := by decide

theorem wit_ResetValues : { halted with port := [.reset] }.port = .reset :: [] := by decide

/-- Both invariants hold of a halted state too, and it takes a step. -/
theorem wit_StepKeepsInvariant : halted.Inv ∧ halted.FaultRecord ∧ ∃ t, step halted = .next t :=
  ⟨⟨by decide, by decide⟩, Or.inl ⟨.illegalOpcode, by decide, by decide⟩, _, rfl⟩

theorem wit_StepKeepsFaultRecord : State.reset.FaultRecord ∧
    ∃ t, step (State.reset.issueNext 0x28B42300) = .next t :=
  ⟨⟨by decide, by decide⟩, _, rfl⟩

/-- For each clause of WhoChangesWhat, a step in which the thing named does change. -/
theorem wit_WhoChangesWhat :
    outC (step ((st [(1, 0xFFFFFFFFFFFFFFFF), (2, 1)] []).issueNext 0x4FF31200)) = some true ∧
    outFault (step { halted with port := [.clear] }) = some (0, 0) ∧
    outFault (step (State.reset.issueNext 0xA0000000)) = some (0x12, 0xA0000000) ∧
    outWords 0 1 (step ((st [(1, 1)] [0, 0]).issueNext 0x38B12300)) = some (1, 0) ∧
    outReg 3 (step { State.reset with port := [.wrv 3 7] }) = some 7 := by decide

/-- A command that faults and one that does not, for the frame of STF and of all commands. -/
theorem wit_CommandFrame :
    (∃ t, exec (.stf ⟨true, 12⟩ 1 2 3) (st [(3, 60)] [0, 0]) = .next t) ∧
    (∃ t, exec (.add ⟨true, 12⟩ 1 2 3) (st [] []) = .next t) := ⟨⟨_, rfl⟩, ⟨_, rfl⟩⟩

/-- Word 2 is neither word of a straddling field at word 0; word 1 is outside one that does not straddle. -/
theorem wit_StfWordFrame :
    (∃ t, exec (.stf ⟨true, 12⟩ 1 2 3) (st [(3, 60)] [0, 0]) = .next t) ∧
    2 ≠ wordIndex ((st [(3, 60)] [0, 0]).readV 2) ∧ 2 ≠ wordIndex ((st [(3, 60)] [0, 0]).readV 2) + 1 ∧
    bitOffset ((st [(3, 52)] [0, 0]).readV 3) + 12 ≤ 64 := ⟨⟨_, rfl⟩, by decide, by decide, by decide⟩

/-- Offset 64; index 4 of 4; index 3 with a straddle at offset 53; each with NWORDS = 4. -/
theorem wit_CodecFaults :
    63 < ((st [(3, 64)] []).readV 3).toNat % 2 ^ 64 ∧
    (((st [(2, 4)] []).readV 3).toNat % 2 ^ 64 ≤ 63 ∧
      (st [(2, 4)] []).mem.nwords ≤ ((st [(2, 4)] []).readV 2).toNat % 2 ^ 64) ∧
    (((st [(2, 3), (3, 53)] []).readV 3).toNat % 2 ^ 64 ≤ 63 ∧
      64 < ((st [(2, 3), (3, 53)] []).readV 3).toNat % 2 ^ 64 + 12 ∧
      (st [(2, 3), (3, 53)] []).mem.nwords ≤ ((st [(2, 3), (3, 53)] []).readV 2).toNat % 2 ^ 64 + 1) := by decide

theorem wit_FaultsArePrecise :
    (State.reset.issueNext 0xA0000000).port = .issue 0xA0000000 :: [] ∧
    (State.reset.issueNext 0xA0000000).status.f = false ∧
    ∃ t, step (State.reset.issueNext 0xA0000000) = .next t ∧ t.status.f = true :=
  ⟨by decide, by decide, _, rfl, rfl⟩

/-- For each of the five codes a word and a state that raise it (rows E2, E4, E7 and F20, F19). -/
theorem wit_LowestFaultCodeWins :
    outFault (step ((st [] []).issueNext 0xA0000000)) = some (0x12, 0xA0000000) ∧
    outFault (step ((st [] []).issueNext 0x4FF31201)) = some (0x22, 0x4FF31201) ∧
    outFault (step ((st [] []).issueNext 0x4C031200)) = some (0x32, 0x4C031200) ∧
    outFault (step ((st [(3, 64)] []).issueNext 0x28B42300)) = some (0x42, 0x28B42300) ∧
    outFault (step ((st [(2, 4)] []).issueNext 0x28B42300)) = some (0x52, 0x28B42300) := by decide

/-- Two different registers that agree below the operand bits, for a value at 12 bits, a count at 32 and an
index or offset at 64. -/
theorem wit_OnlyOperandBitsMatter :
    let s := st [(1, 0x7FF), (2, 1)] []
    let t := st [(1, 0xF7FF), (2, 0x20000000000000001)] []
    Ty.legalValue ⟨true, 12⟩ = true ∧ Ty.legalField ⟨true, 12⟩ = true ∧ s.readV 1 ≠ t.readV 1 ∧
    s.readV 2 ≠ t.readV 2 ∧ s.mem = t.mem ∧ s.status = t.status ∧ s.readV 3 = t.readV 3 ∧
    (s.readV 1).toNat % 2 ^ 12 = (t.readV 1).toNat % 2 ^ 12 ∧
    (s.readV 2).toNat % 2 ^ 12 = (t.readV 2).toNat % 2 ^ 12 ∧
    (s.readV 2).toNat % 2 ^ 32 = (t.readV 2).toNat % 2 ^ 32 ∧
    (s.readV 2).toNat % 2 ^ 64 = (t.readV 2).toNat % 2 ^ 64 := by decide

/-- The premises about the next states of OnlyOperandBitsMatter: each of the commands gives one. -/
theorem wit_OnlyOperandBitsMatter_next : ∀ i ∈ [Instr.norm ⟨true, 12⟩ 3 1, .add ⟨true, 12⟩ 3 1 2,
    .sub ⟨true, 12⟩ 3 1 2, .cmp ⟨true, 12⟩ 3 1 2, .shl ⟨true, 12⟩ 3 1 2, .shr ⟨true, 12⟩ 3 1 2,
    .shrz ⟨true, 12⟩ 3 1 2, .ldf ⟨true, 12⟩ 3 2 2, .stf ⟨true, 12⟩ 1 2 2],
      (outC (exec i (st [(1, 0x7FF), (2, 1)] [0, 0]))).isSome = true := by decide

theorem wit_HaltedRunChangesNothing : halted.halted := rfl

theorem wit_RunEndsAtFirstFault : ∃ s1 s2 : State, runProgram [0x48B31200] (st [] []) = .next s1 ∧
    hIssue 0xA0000000 s1 = .next s2 ∧ s2.halted := ⟨_, _, rfl, rfl, rfl⟩

theorem wit_RunIsStepsOfTheMachine :
    { st [] [] with port := [.issue 0x48B31200, .rdstatus] }.port = [0x48B31200].map HostTxn.issue ++ [.rdstatus] := by
  decide

/-- The premise of the results of NORM, ADD, SUB, CMP and the shifts, and of the laws of the types, at each
edge of the legal widths. -/
theorem wit_legalValue : Ty.legalValue ⟨true, 1⟩ = true ∧ Ty.legalValue ⟨false, 64⟩ = true ∧
    Ty.legalValue ⟨true, 128⟩ = true := by decide

/-- The premises of LdfReadsStreamBits, StfWritesStreamBits and StfThenLdfRoundTrip, for a straddling field at
the last two words and for a field that ends M. -/
theorem wit_field_in_memory :
    Ty.legalField ⟨true, 64⟩ = true ∧
    (((st [(2, 2), (3, 63)] []).readV 3).toNat % 2 ^ 64 ≤ 63 ∧
      ((st [(2, 2), (3, 63)] []).readV 2).toNat % 2 ^ 64 + 1 < (st [(2, 2), (3, 63)] []).mem.nwords) ∧
    (((st [(2, 3)] []).readV 3).toNat % 2 ^ 64 + 64 ≤ 64 ∧
      ((st [(2, 3)] []).readV 2).toNat % 2 ^ 64 < (st [(2, 3)] []).mem.nwords) := by decide

/-- The premises of DisjointStfsCommute: two 12-bit fields that share word 0, at offsets 0 and 12. -/
theorem wit_DisjointStfsCommute :
    let s := st [(1, 5), (2, 6), (4, 12)] [0, 0]
    s.mem.wf = true ∧ Ty.legalField ⟨true, 12⟩ = true ∧ (s.readV 4).toNat % 2 ^ 64 = 12 ∧
    (s.readV 3).toNat % 2 ^ 64 = 0 ∧ 0 < s.mem.nwords ∧ 64 * 0 + 0 + 12 ≤ 64 * 0 + 12 := by decide

/-- The premises of NormIsUniqueInRange and its inner clause. -/
theorem wit_NormIsUniqueInRange : Ty.legalValue ⟨true, 12⟩ = true ∧
    Ty.minVal ⟨true, 12⟩ ≤ -2048 ∧ -2048 ≤ Ty.maxVal ⟨true, 12⟩ ∧ (-2048 : Int) % 2 ^ 12 = 2048 % 2 ^ 12 := by
  decide

/-- The inner premises of CanonicalFormLaws: a wider type of the same signedness; a bit above W. -/
theorem wit_CanonicalFormLaws : Ty.legalValue ⟨true, 12⟩ = true ∧ Ty.legalValue ⟨true, 128⟩ = true ∧
    (Ty.mk true 12).width ≤ (Ty.mk true 128).width ∧ (Ty.mk true 12).width ≤ 12 := by decide

/-- The premises of ExtremesWrapAround: the greatest and the least 12-bit value, and the register of 1. -/
theorem wit_ExtremesWrapAround :
    (st [(2, 1)] []).readV 2 = 1 ∧
    opnd ⟨true, 12⟩ ((st [(1, 0x7FF), (2, 1)] []).readV 1) = Ty.maxVal ⟨true, 12⟩ ∧
    opnd ⟨true, 12⟩ ((st [(1, 0x800), (2, 1)] []).readV 1) = Ty.minVal ⟨true, 12⟩ := by decide

/-- The inner premises of CompareIsTotalOrder: x ≤ y and y ≤ z. -/
theorem wit_CompareIsTotalOrder : isLessEqual (compareValues ⟨true, 12⟩ 0xFFF 1) = true ∧
    isLessEqual (compareValues ⟨true, 12⟩ 1 1) = true := by decide

/-- The premise of RepeatedShiftIsDirectShift and the inner premises of ShifterLaws. -/
theorem wit_shift_amounts : (127 : Nat) < 128 ∧ (0 : Int) < 13 ∧ (13 : Int) < 2 ^ 31 ∧ 1 ≤ 11 ∧
    11 < (Ty.mk true 12).width := by decide

end Sys2Proof.Tests
end

/-! PROOFS. The family of 10_state.md. -/

/-! ## The decoder -/

section

namespace Sys2Proof

/-- A command word is the sum of its fields at the places of R60. -/
theorem toNat_eq_sum_bits (w : CmdWord) :
    w.toNat = 2 ^ 28 * bits w 31 28 + 2 ^ 27 * bits w 27 27 + 2 ^ 20 * bits w 26 20 + 2 ^ 16 * bits w 19 16
      + 2 ^ 12 * bits w 15 12 + 2 ^ 8 * bits w 11 8 + bits w 7 0 := by
  have := w.isLt
  simp only [bits]
  norm_num
  omega

/-- Every field of a command word is below 2 to its length. -/
theorem bits_lt (w : CmdWord) (hi lo : Nat) : bits w hi lo < 2 ^ (hi + 1 - lo) :=
  Nat.mod_lt _ (Nat.two_pow_pos _)

/-- The command that the opcode map gives has the map's arguments as its fields; NORM has no third register. -/
theorem fields_of_opcodeMap {op : Nat} {ty : Ty} {rd ra rb : Reg} {i : Instr}
    (h : opcodeMap op ty rd ra rb = some i) :
    i.op = op ∧ i.ty = ty ∧ i.regFields = (rd, ra, if op = 1 then 0 else rb) := by
  unfold opcodeMap at h
  split at h <;> cases h <;> exact ⟨rfl, rfl, rfl⟩

/-- A word that decodes passed the three checks of R66. -/
theorem checks_of_decode {w : CmdWord} {i : Instr} (h : decode w = .ok i) :
    opcodeMap (bits w 31 28) (tyOf w) (Fin.ofNat 16 (bits w 19 16)) (Fin.ofNat 16 (bits w 15 12))
      (Fin.ofNat 16 (bits w 11 8)) = some i ∧ reservedSet w = false ∧ i.wellFormed = true := by
  unfold decode at h
  split at h
  · cases h
  · next j hmap =>
    split at h
    · cases h
    · next hres =>
      split at h
      · next hwf =>
        cases h
        exact ⟨hmap, by simpa using hres, hwf⟩
      · cases h

/-- The reserved fields of a word are 0 (R66 step 2). -/
theorem reservedSet_eq_false_iff (w : CmdWord) :
    reservedSet w = false ↔ bits w 7 0 = 0 ∧ (bits w 31 28 = 1 → bits w 11 8 = 0) := by
  simp [reservedSet]

/-- The S field of a word, as the number of the decoded signedness. -/
theorem tyOf_signed_toNat (w : CmdWord) : (tyOf w).signed.toNat = bits w 27 27 := by
  have := bits_lt w 27 27
  by_cases h : bits w 27 27 = 1
  · simp [tyOf, h]
  · simp [tyOf, h]
    omega

/-- A word that decodes is the word of its command, since no two words decode to one command (R65). -/
theorem encode_eq_of_decode {w : CmdWord} {i : Instr} (h : decode w = .ok i) : encode i = w := by
  obtain ⟨hmap, hres, -⟩ := checks_of_decode h
  obtain ⟨hop, hty, hregs⟩ := fields_of_opcodeMap hmap
  obtain ⟨hz, hnorm⟩ := (reservedSet_eq_false_iff w).mp hres
  have hrd : bits w 19 16 % 16 = bits w 19 16 := Nat.mod_eq_of_lt (bits_lt w 19 16)
  have hra : bits w 15 12 % 16 = bits w 15 12 := Nat.mod_eq_of_lt (bits_lt w 15 12)
  have hrb : (if bits w 31 28 = 1 then 0 else Fin.ofNat 16 (bits w 11 8) : Reg).val = bits w 11 8 := by
    split
    · next h1 => exact (hnorm h1).symm
    · exact Nat.mod_eq_of_lt (bits_lt w 11 8)
  apply BitVec.eq_of_toNat_eq
  rw [encode, hop, hty, hregs, tyOf_signed_toNat, BitVec.toNat_ofNat]
  simp only [tyOf, Fin.ofNat, Nat.add_sub_cancel, hrd, hra] at hrb ⊢
  rw [hrb, Nat.mod_eq_of_lt] <;> have := toNat_eq_sum_bits w <;> have := w.isLt <;> omega

end Sys2Proof
end

/-! ## What a command and a transaction can do -/

section

namespace Sys2Proof.Machine

open Sys2Proof

/-! The commands that can fault, by their meanings. -/

theorem exec_ldf (ty : Ty) (rd ra rb : Reg) (s : State) :
    exec (.ldf ty rd ra rb) s = execLdf ty rd ra rb s := rfl
theorem exec_stf (ty : Ty) (rs ra rb : Reg) (s : State) :
    exec (.stf ty rs ra rb) s = execStf ty rs ra rb s := rfl

/-- A command is total: it always gives a next state (R160). -/
theorem exec_next (i : Instr) (s : State) : ∃ t, exec i s = .next t := by
  obtain ⟨_, -, h⟩ | ⟨_, _, -, h⟩ | ⟨_, -, -, h⟩ | ⟨_, -, -, -, h⟩ := exec_cases i s <;> exact ⟨_, h⟩

/-- A command with OP 2 or 3 is an LDF or an STF. -/
theorem eq_ldf_or_stf_of_op {i : Instr} (h : i.op = 2 ∨ i.op = 3) :
    ∃ ty r ra rb, i = .ldf ty r ra rb ∨ i = .stf ty r ra rb := by
  cases i with
  | ldf ty rd ra rb => exact ⟨ty, rd, ra, rb, .inl rfl⟩
  | stf ty rs ra rb => exact ⟨ty, rs, ra, rb, .inr rfl⟩
  | _ => simp [Instr.op] at h

/-! H_ISSUE by the three ways it can go (R27, R66, R168). -/

theorem hIssue_of_halted {c : CmdWord} {s : State} (hf : s.status.f = true) :
    hIssue c s = .next (s.answer (some .rejected)) := by
  simp [hIssue, hf]

theorem hIssue_of_error {c : CmdWord} {s : State} {code : FaultCode} (hf : s.status.f = false)
    (hd : decode c = .error code) :
    hIssue c s = .next ((s.answer (some .accepted)).takeFault code c) := by
  simp [hIssue, hf, executeWord, hd]

theorem hIssue_of_ok {c : CmdWord} {s : State} {i : Instr} (hf : s.status.f = false) (hd : decode c = .ok i) :
    hIssue c s = exec i (s.answer (some .accepted)) := by
  simp [hIssue, hf, executeWord, hd]

/-- Issuing a word always gives a next state (R160, R161). -/
theorem hIssue_next (c : CmdWord) (s : State) : ∃ t, hIssue c s = .next t := by
  cases hf : s.status.f with
  | true => exact ⟨_, hIssue_of_halted hf⟩
  | false =>
    cases hd : decode c with
    | error code => exact ⟨_, hIssue_of_error hf hd⟩
    | ok i =>
      rw [hIssue_of_ok hf hd]
      exact exec_next i _

/-! The transactions that name a word of M, inside it and outside. -/

theorem hRdm_of_lt {j : Nat} {s : State} (hj : j < s.mem.nwords) :
    hRdm j s = .next (s.answer (some (.word (s.mem.read j)))) := if_pos hj

theorem hRdm_of_ge {j : Nat} {s : State} (hj : s.mem.nwords ≤ j) :
    hRdm j s = .refused (.hostIndexOutOfRange j) := if_neg (Nat.not_lt.mpr hj)

theorem hWrm_of_lt {j : Nat} {s : State} (w : Word) (hj : j < s.mem.nwords) :
    hWrm j w s = .next ({ s with mem := s.mem.write j w }.answer none) := if_pos hj

theorem hWrm_of_ge {j : Nat} {s : State} (w : Word) (hj : s.mem.nwords ≤ j) :
    hWrm j w s = .refused (.hostIndexOutOfRange j) := if_neg (Nat.not_lt.mpr hj)

/-- Everything a transaction that is not refused can do to a state: `Effect s x t` for transaction `x`. The
commands stand by what `exec_cases` says of them, with FCMD of a fault the issued word itself. -/
inductive Effect (s : State) : HostTxn → State → Prop
  /-- A read, or H_ISSUE on a halted unit. -/
  | answers {x : HostTxn} {r : Option HostReply} (h : transact x s = .next (s.answer r)) :
      Effect s x (s.answer r)
  | decodeFault {c : CmdWord} {code : FaultCode} (hf : s.status.f = false) (hd : decode c = .error code) :
      Effect s (.issue c) ((s.answer (some .accepted)).takeFault code c)
  | codecFault {c : CmdWord} {i : Instr} {code : FaultCode} (hf : s.status.f = false) (hd : decode c = .ok i)
      (hop : i.op = 2 ∨ i.op = 3) (hcode : code = .badOffset ∨ code = .badIndex) :
      Effect s (.issue c) ((s.answer (some .accepted)).takeFault code c)
  | writesDest {c : CmdWord} {i : Instr} (y : Value) (hf : s.status.f = false) (hd : decode c = .ok i)
      (hop : i.op ≠ 3) : Effect s (.issue c) ((s.answer (some .accepted)).writeV i.regFields.1 y)
  | writesDestAndC {c : CmdWord} {i : Instr} (y : Value) (b : Bool) (hf : s.status.f = false)
      (hd : decode c = .ok i) (hop : i.op = 4 ∨ i.op = 5) :
      Effect s (.issue c) (((s.answer (some .accepted)).writeV i.regFields.1 y).writeC b)
  | stores {c : CmdWord} {i : Instr} {m : Memory} (hf : s.status.f = false) (hd : decode c = .ok i)
      (hop : i.op = 3) (hsize : m.nwords = s.mem.nwords) (hwf : s.mem.wf = true → m.wf = true) :
      Effect s (.issue c) { s.answer (some .accepted) with mem := m }
  | hostWritesV (r : Reg) (y : Value) : Effect s (.wrv r y) ((s.writeV r y).answer none)
  | hostWritesM {j : Nat} (w : Word) (hj : j < s.mem.nwords) :
      Effect s (.wrm j w) ({ s with mem := s.mem.write j w }.answer none)
  | clears : Effect s .clear (s.clearFault.answer none)
  | resets : Effect s .reset (s.resetUnit.answer none)

/-- What H_ISSUE of a word can do. -/
theorem hIssue_effect {c : CmdWord} {s t : State} (h : hIssue c s = .next t) : Effect s (.issue c) t := by
  cases hf : s.status.f with
  | true =>
    cases (hIssue_of_halted hf).symm.trans h
    exact .answers h
  | false =>
    cases hd : decode c with
    | error code =>
      cases (hIssue_of_error hf hd).symm.trans h
      exact .decodeFault hf hd
    | ok i =>
      rw [hIssue_of_ok hf hd] at h
      obtain ⟨y, hop, he⟩ | ⟨y, b, hop, he⟩ | ⟨code, hop, hcode, he⟩ | ⟨m, hop, hsize, hwf, he⟩ :=
        exec_cases i (s.answer (some .accepted)) <;> cases he.symm.trans h
      · exact .writesDest y hf hd hop
      · exact .writesDestAndC y b hf hd hop
      · rw [encode_eq_of_decode hd]
        exact .codecFault hf hd hop hcode
      · exact .stores hf hd hop hsize hwf

/-- What any transaction can do. -/
theorem transact_effect {x : HostTxn} {s t : State} (h : transact x s = .next t) : Effect s x t := by
  cases x with
  | issue c => exact hIssue_effect h
  | wrv r y => cases h; exact .hostWritesV r y
  | clear => cases h; exact .clears
  | reset => cases h; exact .resets
  | rdm j =>
    obtain hj | hj := Nat.lt_or_ge j s.mem.nwords
    · cases (hRdm_of_lt hj).symm.trans h
      exact .answers h
    · cases (hRdm_of_ge hj).symm.trans h
  | wrm j w =>
    obtain hj | hj := Nat.lt_or_ge j s.mem.nwords
    · cases (hWrm_of_lt w hj).symm.trans h
      exact .hostWritesM w hj
    · cases (hWrm_of_ge w hj).symm.trans h
  | rdv r => cases h; exact .answers rfl
  | rdstatus => cases h; exact .answers rfl
  | rdfcmd => cases h; exact .answers rfl

/-- A step is idle or has the effect of the transaction at the head of the port. -/
theorem step_effect {s t : State} (h : step s = .next t) :
    t = s ∨ ∃ x rest, s.port = x :: rest ∧ Effect { s with port := rest } x t := by
  cases hp : s.port with
  | nil =>
    cases (step_nil hp).symm.trans h
    exact .inl rfl
  | cons x rest => exact .inr ⟨x, rest, rfl, transact_effect ((step_cons hp).symm.trans h)⟩

/-! ## The two invariants -/

/-- A property that says nothing of the port and that every effect keeps is kept by every step. -/
theorem step_keeps {P : State → Prop} (hport : ∀ s rest, P s → P { s with port := rest })
    (heffect : ∀ {s x t}, P s → Effect s x t → P t) {s t : State} (hs : P s) (h : step s = .next t) : P t := by
  obtain rfl | ⟨x, rest, -, he⟩ := step_effect h
  · exact hs
  · exact heffect (hport s rest hs) he

/-- No effect changes NWORDS. -/
theorem Effect.nwords_eq {s t : State} {x : HostTxn} (h : Effect s x t) : t.mem.nwords = s.mem.nwords := by
  cases h with
  | stores _ _ _ hsize _ => exact hsize
  | _ => rfl

/-- A fault's code is 1 to 5 (R162), so fault entry leaves a legal STATUS. -/
theorem takeFault_legal (s : State) (code : FaultCode) (c : CmdWord) :
    (s.takeFault code c).status.legal = true := by
  cases code <;> rfl

/-- Every effect keeps the memory's canonical form and a legal STATUS: only the stores write M, and only a fault,
H_CLEAR and H_RESET write F and FCODE. -/
theorem Effect.inv {s t : State} {x : HostTxn} (hs : s.Inv) (h : Effect s x t) : t.Inv := by
  obtain ⟨hmem, hstatus⟩ := hs
  cases h with
  | decodeFault _ _ => exact ⟨hmem, takeFault_legal ..⟩
  | codecFault _ _ _ _ => exact ⟨hmem, takeFault_legal ..⟩
  | stores _ _ _ _ hwf => exact ⟨hwf hmem, hstatus⟩
  | hostWritesM w hj => exact ⟨Memory.wf_write w hmem hj, hstatus⟩
  | clears => exact ⟨hmem, rfl⟩
  | resets => exact ⟨hmem, rfl⟩
  | _ => exact ⟨hmem, hstatus⟩

/-- Settles O16: the invariant and the size of M are kept by every effect. -/
theorem stepKeepsInvariant : Obligations.StepKeepsInvariant := by
  intro s t hs h
  have hkeep : t.Inv ∧ t.mem.nwords = s.mem.nwords :=
    step_keeps (P := fun u => u.Inv ∧ u.mem.nwords = s.mem.nwords) (fun _ _ hu => hu)
      (fun hu he => ⟨he.inv hu.1, he.nwords_eq.trans hu.2⟩) ⟨hs, rfl⟩ h
  exact hkeep

/-- A fault of the issued word leaves a true record: of the decoder's code (R163). -/
theorem faultRecord_of_decode_error {s : State} {c : CmdWord} {code : FaultCode} (hd : decode c = .error code) :
    (s.takeFault code c).FaultRecord := .inl ⟨code, hd, rfl⟩

/-- A fault of the issued word leaves a true record: of a check of LDF or STF (R162). -/
theorem faultRecord_of_codec_fault {s : State} {c : CmdWord} {i : Instr} {code : FaultCode}
    (hd : decode c = .ok i) (hop : i.op = 2 ∨ i.op = 3) (hcode : code = .badOffset ∨ code = .badIndex) :
    (s.takeFault code c).FaultRecord := by
  obtain ⟨ty, r, ra, rb, hi⟩ := eq_ldf_or_stf_of_op hop
  refine .inr ⟨ty, r, ra, rb, ?_, hcode.imp (congrArg FaultCode.num) (congrArg FaultCode.num)⟩
  obtain rfl | rfl := hi
  · exact .inl hd
  · exact .inr hd

/-- Every effect keeps the fault record: a fault makes a new one, H_CLEAR and H_RESET empty it, and nothing else
writes F, FCODE or FCMD. -/
theorem Effect.faultRecord {s t : State} {x : HostTxn} (hs : s.FaultRecord) (h : Effect s x t) :
    t.FaultRecord := by
  cases h with
  | decodeFault _ hd => exact faultRecord_of_decode_error hd
  | codecFault _ hd hop hcode => exact faultRecord_of_codec_fault hd hop hcode
  | clears => exact ⟨rfl, rfl⟩
  | resets => exact ⟨rfl, rfl⟩
  | _ => exact hs

/-- Settles O17: the fault record is kept by every effect. -/
theorem stepKeepsFaultRecord : Obligations.StepKeepsFaultRecord := fun _ _ hs h =>
  step_keeps (P := State.FaultRecord) (fun _ _ hu => hu) (fun hu he => he.faultRecord hu) hs h

end Sys2Proof.Machine
end

/-! ## Who changes what, and what a command leaves unchanged -/

section

namespace Sys2Proof.Machine

open Sys2Proof

/-! One inversion per part of the state: an effect that changes it names its transaction. -/

theorem Effect.changes_c {s t : State} {x : HostTxn} (h : Effect s x t) (hne : t.status.c ≠ s.status.c) :
    x = .reset ∨ ∃ c i, x = .issue c ∧ decode c = .ok i ∧ (i.op = 4 ∨ i.op = 5) := by
  cases h with
  | writesDestAndC _ _ _ hd hop => exact .inr ⟨_, _, rfl, hd, hop⟩
  | resets => exact .inl rfl
  | _ => exact absurd rfl hne

theorem Effect.clears_f {s t : State} {x : HostTxn} (h : Effect s x t) (hs : s.status.f = true)
    (ht : t.status.f = false) : x = .clear ∨ x = .reset := by
  cases h with
  | clears => exact .inl rfl
  | resets => exact .inr rfl
  | decodeFault _ _ => cases ht
  | codecFault _ _ _ _ => cases ht
  | _ => cases hs.symm.trans ht

theorem Effect.raises_f {s t : State} {x : HostTxn} (h : Effect s x t) (hs : s.status.f = false)
    (ht : t.status.f = true) : ∃ c, x = .issue c ∧ t.fcmd = c := by
  cases h with
  | decodeFault _ _ => exact ⟨_, rfl, rfl⟩
  | codecFault _ _ _ _ => exact ⟨_, rfl, rfl⟩
  | clears => cases ht
  | resets => cases ht
  | _ => cases hs.symm.trans ht

theorem Effect.changes_mem {s t : State} {x : HostTxn} (h : Effect s x t) (hne : t.mem ≠ s.mem) :
    (∃ j w, x = .wrm j w) ∨
      ∃ c i, x = .issue c ∧ s.status.f = false ∧ decode c = .ok i ∧ i.op = 3 := by
  cases h with
  | stores hf hd hop _ _ => exact .inr ⟨_, _, rfl, hf, hd, hop⟩
  | hostWritesM w _ => exact .inl ⟨_, w, rfl⟩
  | _ => exact absurd rfl hne

/-- A register that reads otherwise after a write is the one written. -/
theorem eq_of_readV_writeV_ne {s : State} {i r : Reg} {y : Value} (h : (s.writeV i y).readV r ≠ s.readV r) :
    i = r :=
  Classical.byContradiction fun hne => h (s.readV_writeV_ne y hne)

theorem Effect.changes_readV {s t : State} {x : HostTxn} {r : Reg} (h : Effect s x t)
    (hne : t.readV r ≠ s.readV r) :
    (∃ y, x = .wrv r y) ∨ x = .reset ∨
      ∃ c i, x = .issue c ∧ s.status.f = false ∧ decode c = .ok i ∧ i.op ≠ 3 ∧ i.regFields.1 = r := by
  cases h with
  | writesDest _ hf hd hop =>
    exact .inr (.inr ⟨_, _, rfl, hf, hd, hop, eq_of_readV_writeV_ne (s := s.answer _) hne⟩)
  | writesDestAndC _ _ hf hd hop =>
    exact .inr (.inr ⟨_, _, rfl, hf, hd, by omega, eq_of_readV_writeV_ne (s := s.answer _) hne⟩)
  | hostWritesV r' y =>
    obtain rfl := eq_of_readV_writeV_ne (s := s) hne
    exact .inl ⟨y, rfl⟩
  | resets => exact .inr (.inl rfl)
  | _ => exact absurd rfl hne

theorem Effect.changes_fcmd {s t : State} {x : HostTxn} (h : Effect s x t) (hne : t.fcmd ≠ s.fcmd) :
    x = .clear ∨ x = .reset ∨ ∃ c, x = .issue c ∧ t.fcmd = c ∧ t.status.f = true := by
  cases h with
  | decodeFault _ _ => exact .inr (.inr ⟨_, rfl, rfl, rfl⟩)
  | codecFault _ _ _ _ => exact .inr (.inr ⟨_, rfl, rfl, rfl⟩)
  | clears => exact .inl rfl
  | resets => exact .inr (.inl rfl)
  | _ => exact absurd rfl hne

/-- Settles O18: each clause is the inversion of the step's effect for one part of the state. -/
theorem whoChangesWhat : Obligations.WhoChangesWhat := by
  intro s t x rest hport h
  have he : Effect { s with port := rest } x t := transact_effect ((step_cons hport).symm.trans h)
  exact ⟨he.changes_c, he.clears_f, he.raises_f, he.changes_mem, fun _ => he.changes_readV, he.changes_fcmd⟩

/-- Settles O19: each of the four things a command can do keeps what the frame says. -/
theorem commandFrame : Obligations.CommandFrame := by
  intro i s t h
  obtain ⟨y, hop, he⟩ | ⟨y, b, hop, he⟩ | ⟨code, hop, -, he⟩ | ⟨m, hop, hsize, -, he⟩ := exec_cases i s <;>
    cases he.symm.trans h
  -- a write of the destination; the same and C; fault entry; a store
  · exact ⟨fun r hr => s.readV_writeV_ne y (hr.resolve_left hop).symm, fun _ _ => rfl,
      fun _ _ => ⟨rfl, rfl, rfl⟩, fun _ _ => rfl, rfl, rfl, rfl⟩
  · exact ⟨fun r hr => s.readV_writeV_ne y (hr.resolve_left (by omega)).symm, fun h4 h5 => absurd hop (by omega),
      fun _ _ => ⟨rfl, rfl, rfl⟩, fun _ _ => rfl, rfl, rfl, rfl⟩
  · exact ⟨fun _ _ => rfl, fun _ _ => rfl, fun h2 h3 => absurd hop (by omega), fun _ _ => rfl, rfl, rfl, rfl⟩
  · exact ⟨fun _ _ => rfl, fun _ _ => rfl, fun _ _ => ⟨rfl, rfl, rfl⟩, fun h3 => absurd hop h3, hsize, rfl, rfl⟩

/-! ## The run of a program and the port -/

/-- LDF, when a check fails (R90). -/
theorem execLdf_of_some {ty : Ty} {rd ra rb : Reg} {s : State} {code : FaultCode}
    (h : fieldFault s.mem ty.width (wordIndex (s.readV ra)) (bitOffset (s.readV rb)) = some code) :
    execLdf ty rd ra rb s = .next (s.takeFault code (encode (.ldf ty rd ra rb))) := by
  simp [execLdf, h]

/-- LDF, when the checks pass (R92). -/
theorem execLdf_of_none {ty : Ty} {rd ra rb : Reg} {s : State}
    (h : fieldFault s.mem ty.width (wordIndex (s.readV ra)) (bitOffset (s.readV rb)) = none) :
    execLdf ty rd ra rb s = .next (s.writeV rd (canon ty
      ((readField s.mem ty.width (wordIndex (s.readV ra)) (bitOffset (s.readV rb))).toNat : Int))) := by
  simp [execLdf, h]

/-- STF, when a check fails (R90). -/
theorem execStf_of_some {ty : Ty} {rs ra rb : Reg} {s : State} {code : FaultCode}
    (h : fieldFault s.mem ty.width (wordIndex (s.readV ra)) (bitOffset (s.readV rb)) = some code) :
    execStf ty rs ra rb s = .next (s.takeFault code (encode (.stf ty rs ra rb))) := by
  simp [execStf, h]

/-- STF, when the checks pass (R94). -/
theorem execStf_of_none {ty : Ty} {rs ra rb : Reg} {s : State}
    (h : fieldFault s.mem ty.width (wordIndex (s.readV ra)) (bitOffset (s.readV rb)) = none) :
    execStf ty rs ra rb s = .next { s with
      mem := writeField s.mem ty.width (wordIndex (s.readV ra)) (bitOffset (s.readV rb))
        (storedPattern ty.width (s.readV rs)) } := by
  simp [execStf, h]

/-- The state with other transactions at its port. -/
def State.withPort (s : State) (q : List HostTxn) : State := { s with port := q }

/-- No command reads or moves the port. -/
theorem exec_withPort {i : Instr} {s t : State} (q : List HostTxn) (h : exec i s = .next t) :
    exec i (s.withPort q) = .next (t.withPort q) := by
  cases i with
  | ldf ty rd ra rb =>
    rw [exec_ldf] at h ⊢
    cases hff : fieldFault s.mem ty.width (wordIndex (s.readV ra)) (bitOffset (s.readV rb)) with
    | some code =>
      cases (execLdf_of_some hff).symm.trans h
      exact execLdf_of_some (s := s.withPort q) hff
    | none =>
      cases (execLdf_of_none hff).symm.trans h
      exact execLdf_of_none (s := s.withPort q) hff
  | stf ty rs ra rb =>
    rw [exec_stf] at h ⊢
    cases hff : fieldFault s.mem ty.width (wordIndex (s.readV ra)) (bitOffset (s.readV rb)) with
    | some code =>
      cases (execStf_of_some hff).symm.trans h
      exact execStf_of_some (s := s.withPort q) hff
    | none =>
      cases (execStf_of_none hff).symm.trans h
      exact execStf_of_none (s := s.withPort q) hff
  | _ => cases h; rfl

/-- H_ISSUE does not read or move the port. -/
theorem hIssue_withPort {c : CmdWord} {s t : State} (q : List HostTxn) (h : hIssue c s = .next t) :
    hIssue c (s.withPort q) = .next (t.withPort q) := by
  cases hf : s.status.f with
  | true =>
    cases (hIssue_of_halted hf).symm.trans h
    exact hIssue_of_halted (s := s.withPort q) hf
  | false =>
    cases hd : decode c with
    | error code =>
      cases (hIssue_of_error hf hd).symm.trans h
      exact hIssue_of_error (s := s.withPort q) hf hd
    | ok i =>
      rw [hIssue_of_ok hf hd] at h
      exact (hIssue_of_ok (s := s.withPort q) hf hd).trans (exec_withPort q h)

/-- No effect moves the port. -/
theorem Effect.port_eq {s t : State} {x : HostTxn} (h : Effect s x t) : t.port = s.port := by
  cases h <;> rfl

/-- Settles O27, by induction over the program: the step of the first word is its H_ISSUE, which neither reads
nor moves the port. -/
theorem runIsStepsOfTheMachine : Obligations.RunIsStepsOfTheMachine := by
  intro cs rest s hport
  induction cs generalizing s with
  | nil => exact ⟨s, by cases hport; rfl, core_run_zero s, hport⟩
  | cons c cs ih =>
    obtain ⟨u, hu⟩ := hIssue_next c (s.withPort (cs.map HostTxn.issue ++ rest))
    have hstep : step s = .next u := (step_cons hport).trans hu
    have hissue : hIssue c (s.withPort rest) = .next (u.withPort rest) :=
      hIssue_withPort (s := s.withPort (cs.map HostTxn.issue ++ rest)) rest hu
    obtain ⟨t, hprog, hcore, hrest⟩ := ih u (hIssue_effect hu).port_eq
    have hrun : runProgram (c :: cs) (s.withPort rest) = .next t := by
      rw [runProgram, hissue]
      exact hprog
    exact ⟨t, hrun, (core_run_succ hstep).trans hcore, hrest⟩

end Sys2Proof.Machine
end

/-! ## Only the operand bits matter -/

section

namespace Sys2Proof

/-- Registers that agree below W have one pattern modulo 2^W. -/
theorem emod_twoPow_of_mod_eq {W a b : Nat} (h : a % 2 ^ W = b % 2 ^ W) :
    (a : Int) % twoPow W = (b : Int) % twoPow W := by
  unfold twoPow
  exact_mod_cast h

theorem canon_toNat_congr {ty : Ty} {x y : Value} (h : x.toNat % 2 ^ ty.width = y.toNat % 2 ^ ty.width) :
    canon ty (x.toNat : Int) = canon ty (y.toNat : Int) := canon_congr (emod_twoPow_of_mod_eq h)

theorem opnd_congr {ty : Ty} {x y : Value} (h : x.toNat % 2 ^ ty.width = y.toNat % 2 ^ ty.width) :
    opnd ty x = opnd ty y := norm_congr (emod_twoPow_of_mod_eq h)

theorem pattern_toNat_congr {W : Nat} {x y : Value} (h : x.toNat % 2 ^ W = y.toNat % 2 ^ W) :
    pattern W (x.toNat : Int) = pattern W (y.toNat : Int) := pattern_congr (emod_twoPow_of_mod_eq h)

theorem shiftCount_congr {x y : Value} (h : x.toNat % 2 ^ 32 = y.toNat % 2 ^ 32) :
    shiftCount x = shiftCount y := congrArg (valueOf ⟨true, 32⟩) (pattern_toNat_congr h)

/-- Registers that agree on all 128 bits are equal. -/
theorem eq_of_mod_two_pow_128 {W : Nat} (hW : W = 128) {x y : Value} (h : x.toNat % 2 ^ W = y.toNat % 2 ^ W) :
    x = y := by
  subst hW
  rw [Nat.mod_eq_of_lt x.isLt, Nat.mod_eq_of_lt y.isLt] at h
  exact BitVec.eq_of_toNat_eq h

end Sys2Proof

namespace Sys2Proof.Machine

open Sys2Proof

section

variable {ty : Ty} {x x' y y' : Value}

theorem addValues_congr (hx : x.toNat % 2 ^ ty.width = x'.toNat % 2 ^ ty.width)
    (hy : y.toNat % 2 ^ ty.width = y'.toNat % 2 ^ ty.width) : addValues ty x y = addValues ty x' y' := by
  by_cases hW : ty.width = 128
  · rw [eq_of_mod_two_pow_128 hW hx, eq_of_mod_two_pow_128 hW hy]
  · simp only [addValues, hW, if_false, opnd_congr hx, opnd_congr hy]

theorem subValues_congr (hx : x.toNat % 2 ^ ty.width = x'.toNat % 2 ^ ty.width)
    (hy : y.toNat % 2 ^ ty.width = y'.toNat % 2 ^ ty.width) : subValues ty x y = subValues ty x' y' := by
  by_cases hW : ty.width = 128
  · rw [eq_of_mod_two_pow_128 hW hx, eq_of_mod_two_pow_128 hW hy]
  · simp only [subValues, hW, if_false, opnd_congr hx, opnd_congr hy]

theorem compareValues_congr (hx : x.toNat % 2 ^ ty.width = x'.toNat % 2 ^ ty.width)
    (hy : y.toNat % 2 ^ ty.width = y'.toNat % 2 ^ ty.width) :
    compareValues ty x y = compareValues ty x' y' := by
  by_cases hW : ty.width = 128
  · rw [eq_of_mod_two_pow_128 hW hx, eq_of_mod_two_pow_128 hW hy]
  · simp only [compareValues, hW, if_false, opnd_congr hx, opnd_congr hy]

theorem shiftValue_congr (d : ShiftDir × Nat) (hx : x.toNat % 2 ^ ty.width = x'.toNat % 2 ^ ty.width) :
    shiftValue ty d x = shiftValue ty d x' := by
  by_cases hW : ty.width = 128
  · rw [eq_of_mod_two_pow_128 hW hx]
  · simp only [shiftValue, shiftFormula, hW, if_false, opnd_congr hx, pattern_toNat_congr hx]

theorem storedPattern_congr {W : Nat} (h : x.toNat % 2 ^ W = y.toNat % 2 ^ W) :
    storedPattern W x = storedPattern W y := congrArg (BitVec.ofNat 64) h

end

/-- Each shift writes its destination with the shift by the count it resolves. -/
theorem exec_shift_writes {ty : Ty} {rd ra rb : Reg} {i : Instr}
    (hi : i = .shl ty rd ra rb ∨ i = .shr ty rd ra rb ∨ i = .shrz ty rd ra rb) :
    ∃ own mirror, ∀ s, exec i s = .next (s.writeV rd
      (shiftValue ty (resolveCount own mirror ty.width (shiftCount (s.readV rb))) (s.readV ra))) := by
  obtain rfl | rfl | rfl := hi
  · exact ⟨.left, .right, fun _ => rfl⟩
  · exact ⟨.right, .left, fun _ => rfl⟩
  · exact ⟨.zero, .left, fun _ => rfl⟩

/-- ADD and SUB write their destination and C with a function of the operands that reads only their low bits. -/
theorem exec_addSub_writes {ty : Ty} {rd ra rb : Reg} {i : Instr}
    (hi : i = .add ty rd ra rb ∨ i = .sub ty rd ra rb) :
    ∃ f : Value → Value → Value × Bool,
      (∀ s, exec i s = .next ((s.writeV rd (f (s.readV ra) (s.readV rb)).1).writeC
        (f (s.readV ra) (s.readV rb)).2)) ∧
      ∀ {x x' y y'}, x.toNat % 2 ^ ty.width = x'.toNat % 2 ^ ty.width →
        y.toNat % 2 ^ ty.width = y'.toNat % 2 ^ ty.width → f x y = f x' y' := by
  obtain rfl | rfl := hi
  · exact ⟨addValues ty, fun _ => rfl, addValues_congr⟩
  · exact ⟨subValues ty, fun _ => rfl, subValues_congr⟩

section

variable {ty : Ty} {rd ra rb : Reg} {s t s' t' : State}

/-- LDF's results depend on M, STATUS, the old destination and the low 64 bits of the index and the offset. -/
theorem execLdf_congr (hi : wordIndex (s.readV ra) = wordIndex (t.readV ra))
    (ho : bitOffset (s.readV rb) = bitOffset (t.readV rb)) (hm : s.mem = t.mem)
    (hd : s.readV rd = t.readV rd) (hst : s.status = t.status)
    (hs : execLdf ty rd ra rb s = .next s') (ht : execLdf ty rd ra rb t = .next t') :
    s'.readV rd = t'.readV rd ∧ s'.status = t'.status := by
  cases hff : fieldFault t.mem ty.width (wordIndex (t.readV ra)) (bitOffset (t.readV rb)) with
  | some code =>
    cases (execLdf_of_some hff).symm.trans ht
    rw [← hm, ← hi, ← ho] at hff
    cases (execLdf_of_some hff).symm.trans hs
    exact ⟨hd, by simp [State.takeFault, hst]⟩
  | none =>
    cases (execLdf_of_none hff).symm.trans ht
    rw [← hm, ← hi, ← ho] at hff
    cases (execLdf_of_none hff).symm.trans hs
    simp [hi, ho, hm, hst]

/-- STF's results depend on M, STATUS, the low W bits of the source and the low 64 bits of the index and the
offset. -/
theorem execStf_congr (hi : wordIndex (s.readV ra) = wordIndex (t.readV ra))
    (ho : bitOffset (s.readV rb) = bitOffset (t.readV rb)) (hm : s.mem = t.mem)
    (hp : storedPattern ty.width (s.readV rd) = storedPattern ty.width (t.readV rd)) (hst : s.status = t.status)
    (hs : execStf ty rd ra rb s = .next s') (ht : execStf ty rd ra rb t = .next t') :
    s'.mem = t'.mem ∧ s'.status = t'.status := by
  cases hff : fieldFault t.mem ty.width (wordIndex (t.readV ra)) (bitOffset (t.readV rb)) with
  | some code =>
    cases (execStf_of_some hff).symm.trans ht
    rw [← hm, ← hi, ← ho] at hff
    cases (execStf_of_some hff).symm.trans hs
    simp [State.takeFault, hm, hst]
  | none =>
    cases (execStf_of_none hff).symm.trans ht
    rw [← hm, ← hi, ← ho] at hff
    cases (execStf_of_none hff).symm.trans hs
    simp [hi, ho, hm, hp, hst]

end

/-- Settles O24: each operand reader, and so each result, is a function of the operand's bits. -/
theorem onlyOperandBitsMatter : Obligations.OnlyOperandBitsMatter := by
  intro ty rd ra rb s t s' t' agree
  refine ⟨?norm, ?addSub, ?cmp, ?shift, ?ldf, ?stf⟩
  case norm =>
    intro _ ha hs ht
    cases hs
    cases ht
    simp [canon_toNat_congr ha]
  case addSub =>
    intro _ ha hb i hi hs ht
    obtain ⟨f, hf, hcongr⟩ := exec_addSub_writes hi
    cases (hf s).symm.trans hs
    cases (hf t).symm.trans ht
    simp [hcongr ha hb]
  case cmp =>
    intro _ ha hb hs ht
    cases hs
    cases ht
    simp [compareValues_congr ha hb]
  case shift =>
    intro _ ha hb i hi hs ht
    obtain ⟨own, mirror, hw⟩ := exec_shift_writes hi
    cases (hw s).symm.trans hs
    cases (hw t).symm.trans ht
    simp [shiftCount_congr hb, shiftValue_congr _ ha]
  case ldf =>
    intro _ ha hb hm hd hst hs ht
    exact execLdf_congr ha hb hm hd hst hs ht
  case stf =>
    intro _ hd ha hb hm hst hs ht
    exact execStf_congr ha hb hm (storedPattern_congr hd) hst hs ht

end Sys2Proof.Machine
end

/-! ## The host's transactions, reset and STATUS -/

section

namespace Sys2Proof.Machine

open Sys2Proof

/-- Settles O6: H_ISSUE on a unit that is not halted, of a word that decodes. -/
theorem stepRunsDecodedCommand : Obligations.StepRunsDecodedCommand := fun s _ rest _ hport hf hd =>
  (step_cons hport).trans (hIssue_of_ok (s := s.withPort rest) hf hd)

/-- Settles O9: a step is the head transaction, and each but H_RDM and H_WRM answers without a condition. -/
theorem hostTransactionEffects : Obligations.HostTransactionEffects := by
  intro s rest
  refine ⟨fun _ => step_cons, fun _ _ => step_cons, ?rdm, ?wrm, step_cons, step_cons, step_cons, step_cons⟩
  case rdm =>
    intro j hj hport
    exact (step_cons hport).trans (hRdm_of_lt (s := s.withPort rest) hj)
  case wrm =>
    intro j w hj hport
    exact ⟨s.mem.write j w, (step_cons hport).trans (hWrm_of_lt (s := s.withPort rest) w hj),
      s.mem.write_nwords j w, s.mem.read_write_same j w, fun _ hk => s.mem.read_write_ne hk w⟩

/-- Settles O10: the two transactions that name a word check its index. -/
theorem hostIndexOutOfRangeRefused : Obligations.HostIndexOutOfRangeRefused := fun s rest _ w hj =>
  ⟨fun hport => (step_cons hport).trans (hRdm_of_ge (s := s.withPort rest) hj),
    fun hport => (step_cons hport).trans (hWrm_of_ge (s := s.withPort rest) w hj)⟩

/-- A word issued to a unit that is not halted is accepted (R27). -/
theorem hIssue_reply {c : CmdWord} {s t : State} (hf : s.status.f = false) (h : hIssue c s = .next t) :
    t.reply = some .accepted := by
  cases hd : decode c with
  | error code =>
    cases (hIssue_of_error hf hd).symm.trans h
    rfl
  | ok i =>
    obtain ⟨-, -, -, -, -, -, hreply⟩ := commandFrame i _ t ((hIssue_of_ok hf hd).symm.trans h)
    exact hreply

/-- STATUS reads as 0 after reset (R31). -/
theorem Status.zero_word : Status.zero.word = 0 := by decide

/-- Settles O14: the values of reset and H_RESET, and the first H_ISSUE after reset. -/
theorem resetValues : Obligations.ResetValues := by
  refine ⟨State.readV_reset, Status.zero_word, rfl, rfl, ?hreset, ?issue⟩
  case hreset =>
    intro s rest hport
    exact ⟨(s.withPort rest).resetUnit.answer none, step_cons hport, (s.withPort rest).readV_resetUnit,
      Status.zero_word, rfl, rfl, rfl, rfl⟩
  case issue =>
    intro c
    obtain ⟨t, ht⟩ := hIssue_next c State.reset
    exact ⟨t, (step_cons (s := State.reset.withPort [.issue c]) rfl).trans ht, hIssue_reply rfl ht⟩

/-- Settles O15: no word of M is listed, and STATUS and FCMD are 0. -/
theorem resetMeetsInvariants : Obligations.ResetMeetsInvariants := ⟨⟨by decide, by decide⟩, rfl, rfl⟩

/-- The STATUS word is C and F below bit 4 and FCODE from bit 4 up (R25). -/
theorem Status.word_getLsbD (st : Status) (k : Nat) :
    st.word.getLsbD k = if k < 4 then (st.c.toNat + 2 * st.f.toNat).testBit k else st.fcode.getLsbD (k - 4) := by
  have hlow : st.c.toNat + 2 * st.f.toNat < 2 ^ 4 := by
    have := st.c.toNat_lt
    have := st.f.toNat_lt
    omega
  have hword : st.c.toNat + 2 * st.f.toNat + 16 * st.fcode.toNat =
      2 ^ 4 * st.fcode.toNat + (st.c.toNat + 2 * st.f.toNat) := by omega
  rw [Status.word, BitVec.getLsbD_ofNat, hword, Nat.testBit_two_pow_mul_add _ hlow]
  by_cases hk : k < 32
  · simp [hk, BitVec.getLsbD]
  · have hcode : st.fcode.getLsbD (k - 4) = false := BitVec.getLsbD_of_ge _ _ (by omega)
    simp [hk, hcode]
    omega

/-- Settles O52: the word's bits below 4 are those of C + 2 * F, and those from 4 up are FCODE's. -/
theorem statusWordLayout : Obligations.StatusWordLayout := by
  intro s
  simp only [Status.word_getLsbD]
  refine ⟨?c, ?f, ?fcode, ?two, ?three, ?high, rfl⟩
  case c => cases s.status.c <;> cases s.status.f <;> rfl
  case f => cases s.status.c <;> cases s.status.f <;> rfl
  case two => cases s.status.c <;> cases s.status.f <;> rfl
  case three => cases s.status.c <;> cases s.status.f <;> rfl
  case fcode =>
    intro k _
    simp
  case high =>
    intro k hk
    rw [if_neg (by omega)]
    exact BitVec.getLsbD_of_ge _ _ (by omega)

end Sys2Proof.Machine
end

/-! PROOFS. The family of 20_memory.md. -/

/-! ## The bits of a normalised pattern -/

section

namespace Sys2Proof

/-- At S = 1 range-centering reads the W-bit pattern as a two's complement number (R80). -/
theorem norm_of_signed {ty : Ty} (h : ty.signed = true) (x : Int) :
    norm ty x = (BitVec.ofInt ty.width x).toInt := by
  have hhalf : (((2 ^ ty.width : Nat) : Int) + 1) / 2 = twoPow (ty.width - 1) := by
    rw [twoPow]
    cases ty.width with
    | zero => rfl
    | succ n => rw [Nat.add_sub_cancel, Nat.pow_succ]; omega
  rw [BitVec.toInt_ofInt, Int.bmod_def, hhalf, norm, valueOf, pattern]
  simp only [h, true_and, ← not_lt, ite_not]
  rfl

/-- At S = 0 range-centering reads the W-bit pattern as an unsigned number (R80). -/
theorem norm_of_unsigned {ty : Ty} (h : ty.signed = false) (x : Int) :
    norm ty x = ((BitVec.ofInt ty.width x).toNat : Int) := by
  have hnonneg : 0 ≤ x % ((2 ^ ty.width : Nat) : Int) := pattern_nonneg ty.width x
  rw [BitVec.toNat_ofInt, Int.toNat_of_nonneg hnonneg, norm, valueOf, if_neg (by simp [h])]
  rfl

/-- The canonical pattern at S = 1 is the sign extension of the W-bit pattern (R22). -/
theorem canon_of_signed {ty : Ty} (h : ty.signed = true) (x : Int) :
    canon ty x = (BitVec.ofInt ty.width x).signExtend 128 := by
  rw [canon, norm_of_signed h, BitVec.signExtend]

/-- The canonical pattern at S = 0 is the zero extension of the W-bit pattern (R22). -/
theorem canon_of_unsigned {ty : Ty} (h : ty.signed = false) (x : Int) :
    canon ty x = (BitVec.ofInt ty.width x).setWidth 128 := by
  rw [canon, norm_of_unsigned h, BitVec.ofInt_natCast, BitVec.ofNat_toNat]

/-- The bits of a canonical pattern (R22): the number's own below W, from W up its bit W - 1 or 0. -/
theorem canon_natCast_getLsbD {ty : Ty} (hW : 1 ≤ ty.width) (n : Nat) {k : Nat} (hk : k < 128) :
    (canon ty (n : Int)).getLsbD k =
      if k < ty.width then n.testBit k else ty.signed && n.testBit (ty.width - 1) := by
  cases hs : ty.signed with
  | true =>
    rw [canon_of_signed hs, BitVec.ofInt_natCast, BitVec.getLsbD_signExtend, BitVec.msb_eq_getLsbD_last]
    simp only [BitVec.getLsbD_ofNat]
    by_cases hkW : k < ty.width
    · simp [hk, hkW]
    · simp [hk, hkW, show ty.width - 1 < ty.width by omega]
  | false =>
    rw [canon_of_unsigned hs, BitVec.ofInt_natCast, BitVec.getLsbD_setWidth, BitVec.getLsbD_ofNat]
    by_cases hkW : k < ty.width <;> simp [hk, hkW]

end Sys2Proof
end

/-! ## The stream bits of a field -/

section

namespace Sys2Proof.Machine

open Sys2Proof

/-- Stream bit b of those from word i on lies in word i. -/
theorem Memory.streamBit_word (m : Memory) (i : Nat) {b : Nat} (hb : b < 64) :
    m.streamBit (64 * i + b) = (m.read i).getLsbD b := by
  rw [Memory.streamBit, show (64 * i + b) / 64 = i by omega, show (64 * i + b) % 64 = b by omega]

/-- Stream bit b of those from word i on lies in word i + 1. -/
theorem Memory.streamBit_next_word (m : Memory) (i : Nat) {b : Nat} (hb : 64 ≤ b) (hb' : b < 128) :
    m.streamBit (64 * i + b) = (m.read (i + 1)).getLsbD (b - 64) := by
  rw [← m.streamBit_word (i + 1) (by omega), show 64 * (i + 1) + (b - 64) = 64 * i + b by omega]

/-- A field that straddles fills the first word (R90). -/
theorem fieldLow_of_straddle {W off : Nat} (h : 64 < off + W) : fieldLow W off = 64 - off := by
  unfold fieldLow
  omega

/-- The second word holds the field's bits past the first (R90). -/
theorem fieldHigh_eq {W off : Nat} (hoff : off ≤ 63) : fieldHigh W off = off + W - 64 := by
  unfold fieldHigh fieldLow
  omega

/-- The widths of a field (R62). -/
theorem width_of_legalField {ty : Ty} (h : ty.legalField = true) : 1 ≤ ty.width ∧ ty.width ≤ 64 := by
  simpa [Ty.legalField] using h

/-- The pattern read from a field has the field's stream bits, and 0 from W up (R41, R92). -/
theorem readField_getLsbD (m : Memory) {W i off : Nat} (hW : W ≤ 64) (hoff : off ≤ 63) (k : Nat) :
    (readField m W i off).getLsbD k = (decide (k < W) && m.streamBit (64 * i + off + k)) := by
  rw [Nat.add_assoc]
  by_cases hin : off + W ≤ 64
  · rw [readField, if_pos ((fieldHigh_eq_zero_iff hoff).mpr hin), BitVec.getLsbD_and,
      BitVec.getLsbD_ushiftRight, mask_getLsbD hW, Bool.and_comm]
    by_cases hk : k < W
    · rw [m.streamBit_word i (by omega)]
    · simp [hk]
  · rw [readField, if_neg ((fieldHigh_eq_zero_iff hoff).not.mpr hin), fieldLow_of_straddle (by omega),
      fieldHigh_eq hoff, BitVec.getLsbD_or, BitVec.getLsbD_ushiftRight, BitVec.getLsbD_shiftLeft,
      BitVec.getLsbD_and, mask_getLsbD (by omega)]
    by_cases hfirst : off + k < 64
    · rw [m.streamBit_word i hfirst]
      simp [show k < W by omega, show k < 64 - off by omega]
    · rw [BitVec.getLsbD_of_ge _ _ (by omega)]
      by_cases hk : k < W
      · rw [m.streamBit_next_word i (by omega) (by omega), show k - (64 - off) = off + k - 64 by omega]
        simp [hk, show k < 64 by omega, show ¬k < 64 - off by omega, show off + k - 64 < off + W - 64 by omega]
      · simp [hk, show ¬k - (64 - off) < off + W - 64 by omega]

/-- Settles O35: the pattern read has the field's stream bits, and the canonical pattern extends it. -/
theorem ldfReadsStreamBits : Obligations.LdfReadsStreamBits := by
  intro ty rd ra rb s hty i off hoff hi hnext
  obtain ⟨hW1, hW64⟩ := width_of_legalField hty
  refine ⟨canon ty ((readField s.mem ty.width i off).toNat : Int),
    execLdf_of_none ((fieldFault_eq_none_iff ..).mpr ⟨hoff, hi, hnext⟩), fun k hk => ?_⟩
  rw [canon_natCast_getLsbD hW1 _ hk]
  simp only [BitVec.testBit_toNat, readField_getLsbD s.mem hW64 hoff]
  by_cases hkW : k < ty.width
  · simp [hkW]
  · simp [hkW, show ty.width - 1 < ty.width by omega]

/-! The words that STF writes, bit by bit (R94). Bits of the pattern from W up are 0. -/

section

variable {p : Word} (w : Word) {off b : Nat} (hb : b < 64)
include hb

/-- The word of a field that lies in one word. -/
theorem wordWithField_getLsbD {W : Nat} (hp : ∀ k, W ≤ k → p.getLsbD k = false) (hW : W ≤ 64) :
    ((w &&& ~~~(mask W <<< off)) ||| (p <<< off)).getLsbD b =
      if off ≤ b ∧ b < off + W then p.getLsbD (b - off) else w.getLsbD b := by
  simp only [BitVec.getLsbD_or, BitVec.getLsbD_and, BitVec.getLsbD_not, BitVec.getLsbD_shiftLeft,
    mask_getLsbD hW, hb, decide_true, Bool.true_and]
  by_cases hlo : off ≤ b
  · by_cases hhi : b < off + W
    · simp [hlo, hhi, show ¬b < off by omega, show b - off < W by omega]
    · simp [hhi, show ¬b - off < W by omega, hp (b - off) (by omega)]
  · simp [hlo, show b < off by omega]

/-- The first word of a field that straddles: the pattern's low bits fill it from off up. -/
theorem firstWord_getLsbD (hoff : off ≤ 64) :
    ((w &&& mask off) ||| ((p &&& mask (64 - off)) <<< off)).getLsbD b =
      if off ≤ b then p.getLsbD (b - off) else w.getLsbD b := by
  simp only [BitVec.getLsbD_or, BitVec.getLsbD_and, BitVec.getLsbD_shiftLeft, mask_getLsbD hoff,
    mask_getLsbD (show 64 - off ≤ 64 by omega), hb, decide_true, Bool.true_and]
  by_cases hlo : off ≤ b
  · simp [hlo, show ¬b < off by omega, show b - off < 64 - off by omega]
  · simp [hlo, show b < off by omega]

/-- The second word of a field that straddles: the pattern's bits from low up fill it below high. -/
theorem secondWord_getLsbD {low high : Nat} (hp : ∀ k, low + high ≤ k → p.getLsbD k = false)
    (hhigh : high ≤ 64) :
    ((w &&& ~~~(mask high)) ||| (p >>> low)).getLsbD b =
      if b < high then p.getLsbD (low + b) else w.getLsbD b := by
  simp only [BitVec.getLsbD_or, BitVec.getLsbD_and, BitVec.getLsbD_not, BitVec.getLsbD_ushiftRight,
    mask_getLsbD hhigh, hb, decide_true, Bool.true_and]
  by_cases hin : b < high
  · simp [hin]
  · simp [hin, hp (low + b) (by omega)]

end

/-- Writing a field changes bit b of word j exactly when that bit lies in the field (R44, R94). -/
theorem writeField_read_getLsbD (m : Memory) {W i off : Nat} {p : Word} (hW : W ≤ 64) (hoff : off ≤ 63)
    (hp : ∀ k, W ≤ k → p.getLsbD k = false) (j : Nat) {b : Nat} (hb : b < 64) :
    ((writeField m W i off p).read j).getLsbD b =
      if 64 * i + off ≤ 64 * j + b ∧ 64 * j + b < 64 * i + off + W then p.getLsbD (64 * j + b - (64 * i + off))
      else (m.read j).getLsbD b := by
  by_cases hin : off + W ≤ 64
  · have hhigh := (fieldHigh_eq_zero_iff hoff).mpr hin
    by_cases hj : j = i
    · subst hj
      rw [writeField, if_pos hhigh, Memory.read_write_same, wordWithField_getLsbD _ hb hp hW,
        Nat.add_assoc, Nat.add_sub_add_left]
      exact if_congr (by omega) rfl rfl
    · rw [writeField_read_ne m p hj (.inl hhigh), if_neg (by omega)]
  · have hhigh := (fieldHigh_eq_zero_iff hoff).not.mpr hin
    have hlow := fieldLow_of_straddle (W := W) (off := off) (by omega)
    by_cases hj : j = i
    · subst hj
      rw [writeField, if_neg hhigh, Memory.read_write_ne _ (by omega), Memory.read_write_same, hlow,
        firstWord_getLsbD _ hb (by omega), Nat.add_sub_add_left]
      exact if_congr (by omega) rfl rfl
    · by_cases hj' : j = i + 1
      · subst hj'
        rw [writeField, if_neg hhigh, Memory.read_write_same, hlow, fieldHigh_eq hoff,
          secondWord_getLsbD _ hb (fun k hk => hp k (by omega)) (by omega),
          show 64 * (i + 1) + b - (64 * i + off) = 64 - off + b by omega]
        exact if_congr (by omega) rfl rfl
      · rw [writeField_read_ne m p hj (.inr hj'), if_neg (by omega)]

/-- Writing a field writes the field's stream bits and no other (R41, R94). -/
theorem writeField_streamBit (m : Memory) {W i off : Nat} {p : Word} (hW : W ≤ 64) (hoff : off ≤ 63)
    (hp : ∀ k, W ≤ k → p.getLsbD k = false) (q : Nat) :
    (writeField m W i off p).streamBit q =
      if 64 * i + off ≤ q ∧ q < 64 * i + off + W then p.getLsbD (q - (64 * i + off)) else m.streamBit q := by
  rw [Memory.streamBit, writeField_read_getLsbD m hW hoff hp _ (Nat.mod_lt q (by decide)), Nat.div_add_mod]
  rfl

/-- The pattern that STF stores is the source's low W bits (R94). -/
theorem storedPattern_getLsbD {W : Nat} (hW : W ≤ 64) (x : Value) (k : Nat) :
    (storedPattern W x).getLsbD k = (decide (k < W) && x.getLsbD k) := by
  rw [storedPattern, BitVec.getLsbD_ofNat, Nat.testBit_mod_two_pow, BitVec.testBit_toNat]
  by_cases hk : k < W
  · simp [hk, show k < 64 by omega]
  · simp [hk]

/-- Settles O36: the write of the field changes its stream bits only, to those of the stored pattern. -/
theorem stfWritesStreamBits : Obligations.StfWritesStreamBits := by
  intro ty rs ra rb s hty i off hoff hi hnext
  obtain ⟨-, hW⟩ := width_of_legalField hty
  have hp : ∀ k, ty.width ≤ k → (storedPattern ty.width (s.readV rs)).getLsbD k = false := fun k hk => by
    simp [storedPattern_getLsbD hW, show ¬k < ty.width by omega]
  refine ⟨writeField s.mem ty.width i off (storedPattern ty.width (s.readV rs)),
    execStf_of_none ((fieldFault_eq_none_iff ..).mpr ⟨hoff, hi, hnext⟩), writeField_nwords .., fun q => ?_⟩
  rw [writeField_streamBit s.mem hW hoff hp]
  by_cases hq : 64 * i + off ≤ q ∧ q < 64 * i + off + ty.width
  · rw [if_pos hq, if_pos hq, storedPattern_getLsbD hW]
    simp [show q - (64 * i + off) < ty.width by omega]
  · rw [if_neg hq, if_neg hq]

/-- Settles O20: a fault keeps M, and the write of a field in M reaches only its own words. -/
theorem stfWordFrame : Obligations.StfWordFrame := by
  intro ty rs ra rb s t h j hj hnext
  obtain ⟨code, -, he⟩ | ⟨hff, he⟩ := execStf_cases ty rs ra rb s <;> cases he.symm.trans h
  · rfl
  · obtain ⟨hoff, -, -⟩ := (fieldFault_eq_none_iff ..).mp hff
    exact writeField_read_ne s.mem _ hj (hnext.imp_left (fieldHigh_eq_zero_iff hoff).mpr)

end Sys2Proof.Machine
end

/-! PROOFS. The family of 30_encoding.md. -/

/-! ## Decoding by the checks of R66, and the decoder against the encoder -/

section

namespace Sys2Proof

/-- The opcode map names no command at OP 0 and from OP 10 up (R65). -/
theorem opcodeMap_eq_none {op : Nat} (h : op = 0 ∨ 10 ≤ op) (ty : Ty) (rd ra rb : Reg) :
    opcodeMap op ty rd ra rb = none := by
  obtain rfl | h := h
  · rfl
  · obtain ⟨k, rfl⟩ := Nat.exists_eq_add_of_le' h
    rfl

/-- The opcode map names a command at OP 1 to 9 (R65). -/
theorem exists_opcodeMap_eq_some {op : Nat} (h1 : 1 ≤ op) (h9 : op ≤ 9) (ty : Ty) (rd ra rb : Reg) :
    ∃ i, opcodeMap op ty rd ra rb = some i := by
  interval_cases op <;> exact ⟨_, rfl⟩

/-- A command is what the opcode map gives for its own fields (R61, R65). -/
theorem opcodeMap_fields (i : Instr) :
    opcodeMap i.op i.ty i.regFields.1 i.regFields.2.1 i.regFields.2.2 = some i := by
  cases i <;> rfl

/-- The command that a word names, before the other two checks of R66. -/
def namedInstr (w : CmdWord) : Option Instr :=
  opcodeMap (bits w 31 28) (tyOf w) (Fin.ofNat 16 (bits w 19 16)) (Fin.ofNat 16 (bits w 15 12))
    (Fin.ofNat 16 (bits w 11 8))

/-- R66 step 1. -/
theorem decode_of_namedInstr_eq_none {w : CmdWord} (h : namedInstr w = none) :
    decode w = .error .illegalOpcode := by
  rw [namedInstr] at h
  rw [decode, h]

/-- R66 steps 2 to 4. -/
theorem decode_of_namedInstr_eq_some {w : CmdWord} {i : Instr} (h : namedInstr w = some i) :
    decode w = if reservedSet w then .error .reservedField
      else if i.wellFormed then .ok i else .error .illegalWidth := by
  rw [namedInstr] at h
  rw [decode, h]

/-- A command's width is legal by one of two sets, which OP selects (R62). -/
theorem wellFormed_eq (i : Instr) :
    i.wellFormed = if i.op = 2 ∨ i.op = 3 then i.ty.legalField else i.ty.legalValue := by
  cases i <;> rfl

/-- The width of a well-formed command is 1 to 128 (R60, R62). -/
theorem width_of_wellFormed {i : Instr} (h : i.wellFormed = true) : 1 ≤ i.ty.width ∧ i.ty.width ≤ 128 := by
  rw [wellFormed_eq] at h
  split at h
  · exact Laws.EncodeFields.width_of_field h
  · exact Laws.EncodeFields.width_of_value h

/-- The word of a well-formed command names that command. -/
theorem namedInstr_encode {i : Instr} (h : i.wellFormed = true) : namedInstr (encode i) = some i := by
  obtain ⟨hW, hW'⟩ := width_of_wellFormed h
  obtain ⟨hop, hty, hrd, hra, hrb, -⟩ := Laws.EncodeFields.of_legal hW hW'
  rw [namedInstr, hop, hty, hrd, hra, hrb]
  simpa only [Fin.ofNat_eq_cast, Fin.cast_val_eq_self] using opcodeMap_fields i

/-- The word of a well-formed command has 0 in its reserved fields; NORM has no RB. -/
theorem reservedSet_encode {i : Instr} (h : i.wellFormed = true) : reservedSet (encode i) = false := by
  obtain ⟨hW, hW'⟩ := width_of_wellFormed h
  obtain ⟨hop, -, -, -, hrb, hz⟩ := Laws.EncodeFields.of_legal hW hW'
  have hnorm : i.op = 1 → i.regFields.2.2 = 0 := by cases i <;> simp [Instr.op, Instr.regFields]
  exact (reservedSet_eq_false_iff _).mpr ⟨hz, fun h1 => by rw [hrb, hnorm (hop ▸ h1)]; rfl⟩

/-- Settles O2: the word names its command, and the command passes the two checks that follow. -/
theorem decodeOfEncode : Obligations.DecodeOfEncode := fun i h => by
  simp [decode_of_namedInstr_eq_some (namedInstr_encode h), reservedSet_encode h, h]

/-- Settles O3: decoding passes the width check, and the word is the sum of the fields it reads. -/
theorem encodeOfDecode : Obligations.EncodeOfDecode := fun _ _ h =>
  ⟨(checks_of_decode h).2.2, encode_eq_of_decode h⟩

/-- A field of a command word is the bits at its place. -/
theorem bits_eq_extractLsb' (w : CmdWord) (hi lo : Nat) :
    bits w hi lo = (w.extractLsb' lo (hi + 1 - lo)).toNat := by
  rw [bits, BitVec.extractLsb'_toNat, Nat.shiftRight_eq_div_pow]

/-- The decoded signedness is bit 27 (R60). -/
theorem tyOf_signed_eq_getLsbD (w : CmdWord) : (tyOf w).signed = w.getLsbD 27 := by
  simp [tyOf, bits, BitVec.getLsbD, Nat.testBit_eq_decide_div_mod_eq]

/-- R62 for the command that a word names, on the word's WM1 and OP fields. -/
theorem wellFormed_iff_of_namedInstr {w : CmdWord} {i : Instr} (h : namedInstr w = some i) :
    i.wellFormed = true ↔
      bits w 26 20 ≤ 63 ∨ (bits w 26 20 = 127 ∧ bits w 31 28 ≠ 2 ∧ bits w 31 28 ≠ 3) := by
  obtain ⟨hop, hty, -⟩ := fields_of_opcodeMap h
  rw [wellFormed_eq, hop, hty]
  split <;> simp [Ty.legalField, Ty.legalValue, tyOf] <;> omega

/-- A register field is a register number as it stands (R61). -/
theorem ofNat_bits_val (w : CmdWord) (lo : Nat) : (Fin.ofNat 16 (bits w (lo + 3) lo)).val = bits w (lo + 3) lo :=
  Nat.mod_eq_of_lt (by simpa [show lo + 3 + 1 - lo = 4 by omega] using bits_lt w (lo + 3) lo)

/-- With the reserved fields 0, the named command's fields are the word's. -/
theorem fields_of_namedInstr {w : CmdWord} {i : Instr} (h : namedInstr w = some i) (hres : reservedSet w = false) :
    i.op = bits w 31 28 ∧ i.ty = tyOf w ∧ i.regFields.1.val = bits w 19 16 ∧
      i.regFields.2.1.val = bits w 15 12 ∧ i.regFields.2.2.val = bits w 11 8 := by
  obtain ⟨hop, hty, hregs⟩ := fields_of_opcodeMap h
  rw [hregs]
  refine ⟨hop, hty, ofNat_bits_val w 16, ofNat_bits_val w 12, ?_⟩
  by_cases h1 : bits w 31 28 = 1
  · simp [h1, ((reservedSet_eq_false_iff w).mp hres).2 h1]
  · simpa only [h1, if_false] using ofNat_bits_val w 8

/-- Settles O4: with the fields read at their places, each clause is one step of R66. -/
theorem decodeChecksInOrder : Obligations.DecodeChecksInOrder := by
  intro w op wm1 z rb reserved legal
  have hop : bits w 31 28 = op := bits_eq_extractLsb' ..
  have hwm1 : bits w 26 20 = wm1 := bits_eq_extractLsb' ..
  have hz : bits w 7 0 = z := bits_eq_extractLsb' ..
  have hrb : bits w 11 8 = rb := bits_eq_extractLsb' ..
  have hres : reservedSet w = true ↔ reserved := by simp [reservedSet, hop, hz, hrb, reserved]
  have hwf {i} (hi : namedInstr w = some i) : i.wellFormed = true ↔ legal := by
    rw [wellFormed_iff_of_namedInstr hi, hop, hwm1]
  have hnamed (h : 1 ≤ op ∧ op ≤ 9) : ∃ i, namedInstr w = some i :=
    exists_opcodeMap_eq_some (hop ▸ h.1) (hop ▸ h.2) ..
  refine ⟨fun h => ?_, fun h hr => ?_, fun h hr hl => ?_, fun h hr hl => ?_⟩
  · exact decode_of_namedInstr_eq_none (opcodeMap_eq_none (hop ▸ h) ..)
  · obtain ⟨i, hi⟩ := hnamed h
    rw [decode_of_namedInstr_eq_some hi, if_pos (hres.mpr hr)]
  · obtain ⟨i, hi⟩ := hnamed h
    rw [decode_of_namedInstr_eq_some hi, if_neg (mt hres.mp hr), if_neg (mt (hwf hi).mp hl)]
  · obtain ⟨i, hi⟩ := hnamed h
    obtain ⟨hiop, hity, hrd, hra, hrb'⟩ := fields_of_namedInstr hi (Bool.eq_false_iff.mpr (mt hres.mp hr))
    refine ⟨i, ?_, hiop.trans hop, ?_, ?_, ?_, ?_, hrb'.trans hrb⟩
    · rw [decode_of_namedInstr_eq_some hi, if_neg (mt hres.mp hr), if_pos ((hwf hi).mpr hl)]
    · rw [hity, tyOf_signed_eq_getLsbD]
    · rw [hity, ← hwm1]; rfl
    · rw [hrd, bits_eq_extractLsb']
    · rw [hra, bits_eq_extractLsb']

/-- Settles O1: each word's fields are fixed numbers, and so is what R66 makes of them. -/
theorem specWordsDecode : Obligations.SpecWordsDecode := by
  unfold Obligations.SpecWordsDecode
  decide

end Sys2Proof
end

/-! ## The two-word sum and difference are the wrapped ones -/

section

namespace Sys2Proof

/-- The value of a pattern at a type is congruent to the pattern modulo 2^W (R80). -/
theorem norm_emod_twoPow (ty : Ty) (x : Int) : norm ty x % twoPow ty.width = x % twoPow ty.width := by
  unfold norm valueOf
  split
  · rw [pattern, Int.sub_emod_right, Int.emod_emod]
  · rw [pattern, Int.emod_emod]

/-- At W = 128 the canonical pattern of a number is the number modulo 2^128 (R22). -/
theorem canon_of_width_128 {ty : Ty} (hW : ty.width = 128) (x : Int) : canon ty x = BitVec.ofInt 128 x := by
  have h := norm_emod_twoPow ty x
  rw [hW] at h
  apply BitVec.eq_of_toNat_eq
  simpa [canon, twoPow] using congrArg Int.toNat h

/-- At W = 128 an operand's pattern is the whole register. -/
theorem ofInt_opnd {ty : Ty} (hW : ty.width = 128) (x : Value) : BitVec.ofInt 128 (opnd ty x) = x := by
  have h : BitVec.ofInt 128 (opnd ty x) = canon ty (x.toNat : Int) := rfl
  rw [h, canon_of_width_128 hW, BitVec.ofInt_natCast, BitVec.ofNat_toNat, BitVec.setWidth_eq]

/-- A sum wraps the same with an operand's pattern as with its value (R82). -/
theorem canon_add_opnd (ty : Ty) (a : Int) (x : Value) : canon ty (a + opnd ty x) = canon ty (a + x.toNat) :=
  canon_congr (Int.ModEq.add_left a (norm_emod_twoPow ty x.toNat))

/-- A difference wraps the same with an operand's pattern as with its value (R82). -/
theorem canon_sub_opnd (ty : Ty) (a : Int) (x : Value) : canon ty (a - opnd ty x) = canon ty (a - x.toNat) :=
  canon_congr (Int.ModEq.sub_left a (norm_emod_twoPow ty x.toNat))

/-- A register is its two words (R7). -/
theorem Value.toNat_eq_hi_lo (x : Value) : x.toNat = x.hi.toNat * 2 ^ 64 + x.lo.toNat := by
  rw [← joinWords_toNat, joinWords_hi_lo]

end Sys2Proof

namespace Sys2Proof.Machine

/-- The top bit of a word. -/
theorem getLsbD_63 (x : Word) : x.getLsbD 63 = decide (2 ^ 63 ≤ x.toNat) :=
  (BitVec.msb_eq_getLsbD_last x).symm.trans (BitVec.msb_eq_decide x)

/-- The 63-bit magnitude of a word, as a number. -/
theorem low63_toNat (x : Word) : (low63 x).toNat = x.toNat % 2 ^ 63 := by
  rw [low63, BitVec.toNat_and, mask, ← Nat.and_two_pow_sub_one_eq_mod]
  rfl

/-- The case split on the top bits is the carry out of the 64-bit sum (R111). -/
theorem carry64_eq (x y : Word) : carry64 x y = decide (2 ^ 64 ≤ x.toNat + y.toNat) := by
  have := x.isLt
  have := y.isLt
  simp only [carry64, getLsbD_63, BitVec.toNat_add, low63_toNat, Bool.and_eq_true, bne_iff_ne, ne_eq,
    decide_eq_true_eq, decide_eq_decide]
  split
  · exact (decide_eq_true (by omega)).symm
  · split
    · rw [decide_eq_decide]
      omega
    · exact (decide_eq_false (by omega)).symm

/-- The mirrored case split is the unsigned order (R114). -/
theorem borrow64_eq (x y : Word) : borrow64 x y = decide (x.toNat < y.toNat) := by
  have := x.isLt
  have := y.isLt
  simp only [borrow64, getLsbD_63, BitVec.ult, low63_toNat, Bool.and_eq_true, Bool.not_eq_true', decide_eq_true_eq,
    decide_eq_false_iff_not]
  split
  · exact (decide_eq_true (by omega)).symm
  · split
    · exact (decide_eq_false (by omega)).symm
    · rw [decide_eq_decide]
      omega

/-- The two-word sum with the carry between the words is the 128-bit sum (R113). -/
theorem addValues_fst_wide {ty : Ty} (hW : ty.width = 128) (x y : Value) : (addValues ty x y).1 = x + y := by
  apply BitVec.eq_of_toNat_eq
  rw [addValues, if_pos hW, joinWords_toNat, carry64_eq, BitVec.toNat_add x y, Value.toNat_eq_hi_lo x,
    Value.toNat_eq_hi_lo y]
  by_cases h : 2 ^ 64 ≤ x.lo.toNat + y.lo.toNat <;>
    simp only [h, decide_true, decide_false, Bool.toNat, cond, BitVec.toNat_add, BitVec.toNat_ofNat] <;> omega

/-- The two-word difference with the borrow between the words is the 128-bit difference (R117). -/
theorem subValues_fst_wide {ty : Ty} (hW : ty.width = 128) (x y : Value) : (subValues ty x y).1 = x - y := by
  apply BitVec.eq_of_toNat_eq
  have := x.lo.isLt
  rw [subValues, if_pos hW, joinWords_toNat, borrow64_eq, BitVec.toNat_sub x y, Value.toNat_eq_hi_lo x,
    Value.toNat_eq_hi_lo y]
  by_cases h : x.lo.toNat < y.lo.toNat <;>
    simp only [h, decide_true, decide_false, Bool.toNat, cond, BitVec.toNat_sub, BitVec.toNat_ofNat] <;> omega

/-- ADD's result is the wrapped sum of the operands at every type, the two-word kernel included (R110, R113). -/
theorem addValues_fst (ty : Ty) (x y : Value) : (addValues ty x y).1 = canon ty (opnd ty x + opnd ty y) := by
  by_cases hW : ty.width = 128
  · rw [addValues_fst_wide hW, canon_of_width_128 hW, BitVec.ofInt_add, ofInt_opnd hW, ofInt_opnd hW]
  · rw [addValues, if_neg hW]

/-- SUB's result is the wrapped difference of the operands at every type (R110, R117). -/
theorem subValues_fst (ty : Ty) (x y : Value) : (subValues ty x y).1 = canon ty (opnd ty x - opnd ty y) := by
  by_cases hW : ty.width = 128
  · rw [subValues_fst_wide hW, canon_of_width_128 hW, Int.sub_eq_add_neg, BitVec.ofInt_add, BitVec.ofInt_neg,
      ofInt_opnd hW, ofInt_opnd hW, BitVec.sub_eq_add_neg]
  · rw [subValues, if_neg hW]

end Sys2Proof.Machine
end

/-! ## The pseudo-instructions -/

section

namespace Sys2Proof.Machine

theorem exec_norm (ty : Ty) (rd ra : Reg) (s : State) :
    exec (.norm ty rd ra) s = .next (s.writeV rd (canon ty (s.readV ra).toNat)) := rfl
theorem exec_add (ty : Ty) (rd ra rb : Reg) (s : State) :
    exec (.add ty rd ra rb) s = .next ((s.writeV rd (addValues ty (s.readV ra) (s.readV rb)).1).writeC
      (addValues ty (s.readV ra) (s.readV rb)).2) := rfl
theorem exec_sub (ty : Ty) (rd ra rb : Reg) (s : State) :
    exec (.sub ty rd ra rb) s = .next ((s.writeV rd (subValues ty (s.readV ra) (s.readV rb)).1).writeC
      (subValues ty (s.readV ra) (s.readV rb)).2) := rfl

/-- NORM at S = 1 writes the sign extension of the source's low W bits (R81). -/
theorem exec_norm_signed (W : Nat) (rd ra : Reg) (s : State) :
    exec (.norm ⟨true, W⟩ rd ra) s = .next (s.writeV rd (((s.readV ra).setWidth W).signExtend 128)) := by
  rw [exec_norm, canon_of_signed rfl, BitVec.ofInt_natCast, BitVec.ofNat_toNat]

/-- NORM at S = 0 writes the zero extension of the source's low W bits (R81). -/
theorem exec_norm_unsigned (W : Nat) (rd ra : Reg) (s : State) :
    exec (.norm ⟨false, W⟩ rd ra) s = .next (s.writeV rd (((s.readV ra).setWidth W).setWidth 128)) := by
  rw [exec_norm, canon_of_unsigned rfl, BitVec.ofInt_natCast, BitVec.ofNat_toNat]

/-- The word of MOV (R69). -/
theorem encode_pseudoMov_toNat (rd ra : Reg) :
    (encode (pseudoMov rd ra)).toNat = 0x17F00000 + rd.val * 2 ^ 16 + ra.val * 2 ^ 12 := by
  simp only [encode, pseudoMov, Instr.op, Instr.ty, Instr.regFields, BitVec.toNat_ofNat, Bool.toNat_false,
    Fin.val_zero]
  omega

/-- Settles O5: MOV, SEXT and ZEXT are NORM's extensions, SUCC and PRED its sums with the value 1. -/
theorem pseudoInstructions : Obligations.PseudoInstructions := by
  refine ⟨encode_pseudoMov_toNat, fun rd ra s => ?_, fun W rd ra s _ _ => exec_norm_signed W rd ra s,
    fun W rd ra s _ _ => exec_norm_unsigned W rd ra s, fun ty rd ra one s _ hone => ⟨?_, ?_⟩⟩
  · rw [pseudoMov, exec_norm_unsigned, BitVec.setWidth_eq, BitVec.setWidth_eq]
    rfl
  · refine ⟨_, exec_add .., ?_⟩
    rw [State.writeC_readV, State.readV_writeV_same, addValues_fst, canon_add_opnd, hone]
    rfl
  · refine ⟨_, exec_sub .., ?_⟩
    rw [State.writeC_readV, State.readV_writeV_same, subValues_fst, canon_sub_opnd, hone]
    rfl

end Sys2Proof.Machine
end

/-! PROOFS. The family of 40_normalize.md. -/

/-! ## The range of a type and the one value in it -/

section

namespace Sys2Proof

open Laws.EncodeFields (width_of_value)

theorem twoPow_eq_pow (W : Nat) : twoPow W = 2 ^ W := Nat.cast_pow 2 W

/-- A pattern's values split at its top bit. -/
theorem twoPow_eq_two_mul {W : Nat} (hW : 1 ≤ W) : twoPow W = 2 * twoPow (W - 1) := by
  rw [twoPow_eq_pow, twoPow_eq_pow, mul_pow_sub_one (by omega)]

theorem twoPow_mono {W W' : Nat} (h : W ≤ W') : twoPow W ≤ twoPow W' := by
  rw [twoPow_eq_pow, twoPow_eq_pow]
  exact pow_le_pow_right₀ (by decide) h

theorem twoPow_dvd {W W' : Nat} (h : W ≤ W') : twoPow W ∣ twoPow W' := by
  rw [twoPow_eq_pow, twoPow_eq_pow]
  exact pow_dvd_pow 2 h

/-- A type has 2^W values (R10). -/
theorem Ty.maxVal_add_one {ty : Ty} (hW : 1 ≤ ty.width) : ty.maxVal + 1 = ty.minVal + twoPow ty.width := by
  have := twoPow_eq_two_mul hW
  unfold Ty.maxVal Ty.minVal
  split <;> omega

/-- Range-centering ends in the type's range (R80). -/
theorem norm_mem_range {ty : Ty} (hW : 1 ≤ ty.width) (x : Int) :
    ty.minVal ≤ norm ty x ∧ norm ty x ≤ ty.maxVal := by
  have := twoPow_eq_two_mul hW
  have := pattern_nonneg ty.width x
  have := pattern_lt ty.width x
  cases hs : ty.signed with
  | true =>
    simp only [Ty.minVal, Ty.maxVal, norm, valueOf, hs, true_and, if_true]
    split <;> omega
  | false =>
    simp only [Ty.minVal, Ty.maxVal, norm, valueOf, hs, Bool.false_eq_true, false_and, if_false]
    omega

/-- Two values of a type that are congruent modulo 2^W are equal, since the type has 2^W values. -/
theorem eq_of_mem_range {ty : Ty} (hW : 1 ≤ ty.width) {v w : Int} (hv : ty.minVal ≤ v ∧ v ≤ ty.maxVal)
    (hw : ty.minVal ≤ w ∧ w ≤ ty.maxVal) (h : v % twoPow ty.width = w % twoPow ty.width) : v = w := by
  have := Ty.maxVal_add_one hW
  have hdvd : twoPow ty.width ∣ v - w := Int.ModEq.dvd h.symm
  exact Int.sub_eq_zero.mp (Int.eq_zero_of_abs_lt_dvd hdvd (abs_lt.mpr ⟨by omega, by omega⟩))

/-- R80: a value of the type that is congruent to a number is the number's norm. -/
theorem eq_norm {ty : Ty} (hW : 1 ≤ ty.width) {v x : Int} (hv : ty.minVal ≤ v ∧ v ≤ ty.maxVal)
    (h : v % twoPow ty.width = x % twoPow ty.width) : v = norm ty x :=
  eq_of_mem_range hW hv (norm_mem_range hW x) (h.trans (norm_emod_twoPow ty x).symm)

/-- Settles O39: the norm is in range and congruent, and the range holds one such integer. -/
theorem normIsUniqueInRange : Obligations.NormIsUniqueInRange := by
  intro ty raw hty
  obtain ⟨hW, -⟩ := width_of_value hty
  obtain ⟨hmin, hmax⟩ := norm_mem_range hW raw
  rw [← twoPow_eq_pow]
  exact ⟨hmin, hmax, norm_emod_twoPow ty raw, fun _ hv hv' h => eq_norm hW ⟨hv, hv'⟩ h⟩

/-! ## A canonical pattern read back -/

/-- A wider type of the same signedness has every value of the narrower one. -/
theorem Ty.range_mono {ty ty' : Ty} (hs : ty'.signed = ty.signed) (h : ty.width ≤ ty'.width) :
    ty'.minVal ≤ ty.minVal ∧ ty.maxVal ≤ ty'.maxVal := by
  have := twoPow_mono h
  have := twoPow_mono (Nat.sub_le_sub_right h 1)
  unfold Ty.minVal Ty.maxVal
  rw [hs]
  split <;> omega

/-- A norm is its own norm, also at a wider type of the same signedness (R82 law 5). -/
theorem norm_norm_of_le {ty ty' : Ty} (hW : 1 ≤ ty.width) (hs : ty'.signed = ty.signed)
    (h : ty.width ≤ ty'.width) (x : Int) : norm ty' (norm ty x) = norm ty x := by
  obtain ⟨hmin, hmax⟩ := norm_mem_range hW x
  obtain ⟨hmin', hmax'⟩ := Ty.range_mono hs h
  exact (eq_norm (hW.trans h) ⟨hmin'.trans hmin, hmax.trans hmax'⟩ rfl).symm

/-- Reading a canonical pattern re-wraps its value at the reader's type (R82 law 5): the register's 128 bits
hold the value modulo every 2^W. -/
theorem opnd_canon_eq_norm_norm {ty' : Ty} (hW : ty'.width ≤ 128) (ty : Ty) (x : Int) :
    opnd ty' (canon ty x) = norm ty' (norm ty x) := by
  have htoNat : ((canon ty x).toNat : Int) = norm ty x % twoPow 128 := by
    rw [canon, BitVec.toNat_ofInt]
    exact Int.toNat_of_nonneg (pattern_nonneg 128 _)
  apply norm_congr
  rw [htoNat, Int.emod_emod_of_dvd _ (twoPow_dvd hW)]

/-- A result is read back as the value written (R82 law 3). -/
theorem opnd_canon {ty : Ty} (hty : ty.legalValue = true) (x : Int) : opnd ty (canon ty x) = norm ty x := by
  obtain ⟨hW, hW'⟩ := width_of_value hty
  rw [opnd_canon_eq_norm_norm hW', norm_norm_of_le hW rfl le_rfl]

/-- A canonical pattern is its own canonical pattern (R82 law 1). -/
theorem canon_toNat_canon {ty : Ty} (hty : ty.legalValue = true) (x : Int) :
    canon ty ((canon ty x).toNat : Int) = canon ty x :=
  congrArg (BitVec.ofInt 128) (opnd_canon hty x)

/-- The bits of a canonical pattern from W up (R82 law 2), since normalising it again changes nothing. -/
theorem canon_getLsbD_of_le {ty : Ty} (hty : ty.legalValue = true) (x : Int) {k : Nat} (hk : ty.width ≤ k)
    (hk' : k < 128) : (canon ty x).getLsbD k = (ty.signed && (canon ty x).getLsbD (ty.width - 1)) := by
  obtain ⟨hW, -⟩ := width_of_value hty
  have h := canon_natCast_getLsbD hW (canon ty x).toNat hk'
  rwa [canon_toNat_canon hty, if_neg (by omega)] at h

/-- Canonical patterns of one type are equal exactly when the values are. -/
theorem canon_eq_iff {ty : Ty} (hty : ty.legalValue = true) (x y : Int) :
    canon ty x = canon ty y ↔ norm ty x = norm ty y := by
  refine ⟨fun h => ?_, congrArg (BitVec.ofInt 128)⟩
  rw [← opnd_canon hty x, h, opnd_canon hty y]

/-- Settles O40: each law of R82 is a lemma above. -/
theorem canonicalFormLaws : Obligations.CanonicalFormLaws := by
  intro ty x y hty
  obtain ⟨hW, -⟩ := width_of_value hty
  refine ⟨canon_toNat_canon hty x, fun _ => canon_getLsbD_of_le hty x, opnd_canon hty x, ?_,
    fun ty' hty' => ?_, canon_eq_iff hty x y⟩
  · rw [← twoPow_eq_pow]
    exact norm_emod_twoPow ty x
  · have hread := opnd_canon_eq_norm_norm (width_of_value hty').2 ty x
    exact ⟨fun hs h => hread.trans (norm_norm_of_le hW hs h x), hread⟩

end Sys2Proof
end

/-! ## NORM, and ADD and SUB at the ends of the range -/

section

namespace Sys2Proof.Machine

open Laws.EncodeFields (width_of_value)

/-- Settles O28: the pattern NORM writes is the canonical one of the source's number. -/
theorem normExtendsTheField : Obligations.NormExtendsTheField := by
  intro ty rd ra s hty
  refine ⟨canon ty (s.readV ra).toNat, exec_norm ty rd ra s, fun k hk => ?_⟩
  rw [canon_natCast_getLsbD (width_of_value hty).1 _ hk]
  rfl

/-- One past the greatest value wraps to the least (R83). -/
theorem norm_maxVal_add_one {ty : Ty} (hW : 1 ≤ ty.width) : norm ty (ty.maxVal + 1) = ty.minVal := by
  have hsize := Ty.maxVal_add_one hW
  have := twoPow_pos ty.width
  refine (eq_norm hW ⟨le_rfl, by omega⟩ ?_).symm
  rw [hsize, Int.add_emod_right]

/-- One before the least value wraps to the greatest (R83). -/
theorem norm_minVal_sub_one {ty : Ty} (hW : 1 ≤ ty.width) : norm ty (ty.minVal - 1) = ty.maxVal := by
  have hsize := Ty.maxVal_add_one hW
  have := twoPow_pos ty.width
  refine (eq_norm hW ⟨by omega, le_rfl⟩ ?_).symm
  rw [show ty.maxVal = ty.minVal - 1 + twoPow ty.width by omega, Int.add_emod_right]

/-- Settles O46: the result is the wrapped sum or difference with 1, read back as its norm; only C is written
of STATUS. -/
theorem extremesWrapAround : Obligations.ExtremesWrapAround := by
  intro ty rd ra rb s hty hone
  obtain ⟨hW, -⟩ := width_of_value hty
  refine ⟨fun hmax => ⟨_, exec_add .., ?_, rfl⟩, fun hmin => ⟨_, exec_sub .., ?_, rfl⟩⟩
  · rw [State.writeC_readV, State.readV_writeV_same, addValues_fst, canon_add_opnd, hone, hmax, opnd_canon hty]
    exact norm_maxVal_add_one hW
  · rw [State.writeC_readV, State.readV_writeV_same, subValues_fst, canon_sub_opnd, hone, hmin, opnd_canon hty]
    exact norm_minVal_sub_one hW

end Sys2Proof.Machine
end

/-! PROOFS. The family of 41_codec.md. -/

/-! ## The checks, and the signedness that STF ignores -/

section

namespace Sys2Proof.Machine

/-- An offset outside a word is the first check to fail (R90). -/
theorem fieldFault_of_badOffset (m : Memory) (W i : Nat) {off : Nat} (hoff : 63 < off) :
    fieldFault m W i off = some .badOffset := if_pos hoff

/-- With an offset inside a word, a field outside M fails the check of the index (R90). -/
theorem fieldFault_of_badIndex {m : Memory} {W i off : Nat} (hoff : off ≤ 63)
    (hout : m.nwords ≤ i ∨ 64 < off + W ∧ m.nwords ≤ i + 1) : fieldFault m W i off = some .badIndex := by
  cases hff : fieldFault m W i off with
  | none =>
    obtain ⟨-, hi, hnext⟩ := (fieldFault_eq_none_iff ..).mp hff
    omega
  | some code =>
    obtain ⟨-, hoff'⟩ | ⟨rfl, -⟩ := fieldFault_some hff
    · omega
    · rfl

/-- LDF and STF enter a fault alike when a check fails: with the check's code and their own word (R163). -/
theorem exec_codec_of_some {ty : Ty} {r ra rb : Reg} {i : Instr} {s : State} {code : FaultCode}
    (hi : i = .ldf ty r ra rb ∨ i = .stf ty r ra rb)
    (h : fieldFault s.mem ty.width (wordIndex (s.readV ra)) (bitOffset (s.readV rb)) = some code) :
    exec i s = .next (s.takeFault code (encode i)) := by
  obtain rfl | rfl := hi
  · exact execLdf_of_some h
  · exact execStf_of_some h

/-- Settles O21: each clause names the check that fails. -/
theorem codecFaults : Obligations.CodecFaults := fun _ _ _ _ _ _ hi =>
  ⟨fun hoff => exec_codec_of_some hi (fieldFault_of_badOffset _ _ _ hoff),
    fun hoff hout => exec_codec_of_some hi (fieldFault_of_badIndex hoff hout)⟩

/-- The word that faults goes to FCMD only (R163). -/
theorem takeFault_eq_but_fcmd (s : State) (code : FaultCode) (c c' : CmdWord) :
    (s.takeFault code c).v = (s.takeFault code c').v ∧ (s.takeFault code c).mem = (s.takeFault code c').mem ∧
      (s.takeFault code c).status = (s.takeFault code c').status := ⟨rfl, rfl, rfl⟩

/-- Settles O51: the checks and the write of STF read the width of the type only. -/
theorem stfIgnoresSignedness : Obligations.StfIgnoresSignedness := by
  intro W rs ra rb s
  cases hff : fieldFault s.mem W (wordIndex (s.readV ra)) (bitOffset (s.readV rb)) with
  | some code =>
    exact ⟨_, _, execStf_of_some (ty := ⟨true, W⟩) hff, execStf_of_some (ty := ⟨false, W⟩) hff,
      takeFault_eq_but_fcmd s code _ _⟩
  | none =>
    exact ⟨_, _, execStf_of_none (ty := ⟨true, W⟩) hff, execStf_of_none (ty := ⟨false, W⟩) hff, rfl, rfl, rfl⟩

end Sys2Proof.Machine
end

/-! ## A field read back, and two fields in either order -/

section

namespace Sys2Proof

/-- A width that is legal for a field is legal for a value (R62). -/
theorem Ty.legalValue_of_legalField {ty : Ty} (h : ty.legalField = true) : ty.legalValue = true :=
  Bool.or_eq_true_iff.mpr (.inl h)

end Sys2Proof

namespace Sys2Proof.Machine

/-- The pattern that STF stores has no bit from W up (R94). -/
theorem storedPattern_getLsbD_of_le {W : Nat} (hW : W ≤ 64) (x : Value) (k : Nat) (hk : W ≤ k) :
    (storedPattern W x).getLsbD k = false := by
  simp [storedPattern_getLsbD hW, show ¬k < W by omega]

/-- A field just written reads as the pattern written (R95 law 1). -/
theorem readField_writeField (m : Memory) {W off : Nat} (i : Nat) {p : Word} (hW : W ≤ 64) (hoff : off ≤ 63)
    (hp : ∀ k, W ≤ k → p.getLsbD k = false) : readField (writeField m W i off p) W i off = p := by
  apply BitVec.eq_of_getLsbD_eq
  intro k _
  rw [readField_getLsbD _ hW hoff, writeField_streamBit m hW hoff hp]
  by_cases hk : k < W
  · simp [hk]
  · simp [hk, hp k (by omega)]

/-- Normalising the pattern that STF stores gives the source's own canonical pattern (R95 law 1). -/
theorem canon_storedPattern {ty : Ty} (hW : ty.width ≤ 64) (x : Value) :
    canon ty ((storedPattern ty.width x).toNat : Int) = canon ty (x.toNat : Int) := by
  have hmod : (storedPattern ty.width x).toNat % 2 ^ ty.width = x.toNat % 2 ^ ty.width := by
    rw [storedPattern, BitVec.toNat_ofNat, Nat.mod_mod_of_dvd _ (pow_dvd_pow 2 hW), Nat.mod_mod]
  exact canon_congr (emod_twoPow_of_mod_eq hmod)

/-- The checks read only the size of M, which the write of a field keeps. -/
@[simp] theorem fieldFault_writeField (m : Memory) (W i off : Nat) (p : Word) (W' i' off' : Nat) :
    fieldFault (writeField m W i off p) W' i' off' = fieldFault m W' i' off' := by
  simp only [fieldFault, writeField_nwords]

/-- The state after STF when its checks pass. -/
def State.storeField (s : State) (ty : Ty) (rs ra rb : Reg) : State :=
  { s with
    mem := writeField s.mem ty.width (wordIndex (s.readV ra)) (bitOffset (s.readV rb))
      (storedPattern ty.width (s.readV rs)) }

theorem exec_stf_of_none {ty : Ty} {rs ra rb : Reg} {s : State}
    (h : fieldFault s.mem ty.width (wordIndex (s.readV ra)) (bitOffset (s.readV rb)) = none) :
    exec (.stf ty rs ra rb) s = .next (s.storeField ty rs ra rb) := execStf_of_none h

/-- Settles O37: LDF passes the checks that STF passed and reads the pattern stored. -/
theorem stfThenLdfRoundTrip : Obligations.StfThenLdfRoundTrip := by
  intro ty rs rd ra rb s hty i off hoff hi hnext
  obtain ⟨-, hW⟩ := width_of_legalField hty
  have hff : fieldFault s.mem ty.width i off = none := (fieldFault_eq_none_iff ..).mpr ⟨hoff, hi, hnext⟩
  have hread : readField (s.storeField ty rs ra rb).mem ty.width i off = storedPattern ty.width (s.readV rs) :=
    readField_writeField s.mem i hW hoff (storedPattern_getLsbD_of_le hW _)
  have hcanon : canon ty ((readField (s.storeField ty rs ra rb).mem ty.width i off).toNat : Int) =
      canon ty ((s.readV rs).toNat : Int) := by
    rw [hread, canon_storedPattern hW]
  refine ⟨_, _, exec_stf_of_none hff, execLdf_of_none ((fieldFault_writeField ..).trans hff), ?_⟩
  rw [State.readV_writeV_same]
  exact ⟨hcanon, (congrArg (opnd ty) hcanon).trans (opnd_canon (Ty.legalValue_of_legalField hty) _)⟩

/-! Equality of canonical memories (log 5), by the words that are listed and the bits that are read. An unlisted
word reads as the free value, so the bits alone do not say what is listed. -/

/-- Something has written word j of M. -/
def Memory.Listed (m : Memory) (j : Nat) : Prop := (lookupCell j m.cells).isSome = true

theorem Memory.lookupCell_of_listed {m : Memory} {j : Nat} (h : m.Listed j) :
    lookupCell j m.cells = some (m.read j) := by
  obtain ⟨w, hw⟩ := Option.isSome_iff_exists.mp h
  rw [Memory.read, hw, Option.getD_some]

theorem Memory.lookupCell_of_not_listed {m : Memory} {j : Nat} (h : ¬m.Listed j) : lookupCell j m.cells = none :=
  Option.not_isSome_iff_eq_none.mp h

theorem Memory.listed_write (m : Memory) (j k : Nat) (w : Word) : (m.write j w).Listed k ↔ k = j ∨ m.Listed k := by
  by_cases h : k = j
  · simp [Memory.Listed, Memory.write, h, lookupCell_insertCell_same]
  · simp [Memory.Listed, Memory.write, h, lookupCell_insertCell_ne h]

/-- Writing a field lists word i and, when the field straddles, word i + 1. -/
theorem writeField_listed (m : Memory) (W i off : Nat) (p : Word) (k : Nat) :
    (writeField m W i off p).Listed k ↔ (k = i ∨ fieldHigh W off ≠ 0 ∧ k = i + 1) ∨ m.Listed k := by
  unfold writeField
  split
  · next h => simp [Memory.listed_write, h]
  · next h =>
    simp only [Memory.listed_write, ne_eq, h, not_false_eq_true, true_and]
    tauto

/-- Memories with the same stream bits read alike. -/
theorem Memory.read_congr {m n : Memory} (h : ∀ q, m.streamBit q = n.streamBit q) (j : Nat) :
    m.read j = n.read j := by
  apply BitVec.eq_of_getLsbD_eq
  intro b hb
  rw [← m.streamBit_word j hb, ← n.streamBit_word j hb, h]

/-- Two memories in canonical form, of one size, with the same words listed and the same stream bits, are equal
data. -/
theorem Memory.ext_of_streamBit {m n : Memory} (hm : m.wf = true) (hn : n.wf = true)
    (hsize : m.nwords = n.nwords) (hlisted : ∀ j, m.Listed j ↔ n.Listed j)
    (hbits : ∀ q, m.streamBit q = n.streamBit q) : m = n := by
  refine Memory.ext_of_wf hm hn hsize fun j => ?_
  by_cases hj : m.Listed j
  · rw [Memory.lookupCell_of_listed hj, Memory.lookupCell_of_listed ((hlisted j).mp hj), Memory.read_congr hbits]
  · rw [Memory.lookupCell_of_not_listed hj, Memory.lookupCell_of_not_listed (mt (hlisted j).mpr hj)]

/-- Stores to two fields that lie in M and share no stream bit commute (R95 law 4): both orders list the words of
the two fields, and each stream bit is written by at most one of the stores. -/
theorem writeField_comm {m : Memory} {W₁ i₁ off₁ W₂ i₂ off₂ : Nat} (x₁ x₂ : Value) (hm : m.wf = true)
    (hW₁ : W₁ ≤ 64) (hW₂ : W₂ ≤ 64) (h₁ : fieldFault m W₁ i₁ off₁ = none) (h₂ : fieldFault m W₂ i₂ off₂ = none)
    (hdisj : 64 * i₁ + off₁ + W₁ ≤ 64 * i₂ + off₂ ∨ 64 * i₂ + off₂ + W₂ ≤ 64 * i₁ + off₁) :
    writeField (writeField m W₁ i₁ off₁ (storedPattern W₁ x₁)) W₂ i₂ off₂ (storedPattern W₂ x₂) =
      writeField (writeField m W₂ i₂ off₂ (storedPattern W₂ x₂)) W₁ i₁ off₁ (storedPattern W₁ x₁) := by
  obtain ⟨hoff₁, -⟩ := (fieldFault_eq_none_iff ..).mp h₁
  obtain ⟨hoff₂, -⟩ := (fieldFault_eq_none_iff ..).mp h₂
  refine Memory.ext_of_streamBit ?wf₁₂ ?wf₂₁ (by simp only [writeField_nwords]) (fun j => ?listed) fun q => ?bits
  case wf₁₂ => exact writeField_wf _ (writeField_wf _ hm h₁) ((fieldFault_writeField ..).trans h₂)
  case wf₂₁ => exact writeField_wf _ (writeField_wf _ hm h₂) ((fieldFault_writeField ..).trans h₁)
  case listed =>
    simp only [writeField_listed]
    exact or_left_comm
  case bits =>
    simp only [writeField_streamBit _ hW₁ hoff₁ (storedPattern_getLsbD_of_le hW₁ x₁),
      writeField_streamBit _ hW₂ hoff₂ (storedPattern_getLsbD_of_le hW₂ x₂)]
    by_cases hq : 64 * i₁ + off₁ ≤ q ∧ q < 64 * i₁ + off₁ + W₁
    · have hq' : ¬(64 * i₂ + off₂ ≤ q ∧ q < 64 * i₂ + off₂ + W₂) := by omega
      rw [if_neg hq', if_pos hq, if_pos hq]
    · rw [if_neg hq, if_neg hq]

/-- Settles O38: the second STF sees the same registers and size of M as the first, and the stores commute. -/
theorem disjointStfsCommute : Obligations.DisjointStfsCommute := by
  intro ty₁ ty₂ rs₁ ra₁ rb₁ rs₂ ra₂ rb₂ s hm hty₁ hty₂ i₁ off₁ i₂ off₂ hoff₁ hi₁ hnext₁ hoff₂ hi₂ hnext₂ hdisj
  obtain ⟨-, hW₁⟩ := width_of_legalField hty₁
  obtain ⟨-, hW₂⟩ := width_of_legalField hty₂
  have h₁ : fieldFault s.mem ty₁.width i₁ off₁ = none := (fieldFault_eq_none_iff ..).mpr ⟨hoff₁, hi₁, hnext₁⟩
  have h₂ : fieldFault s.mem ty₂.width i₂ off₂ = none := (fieldFault_eq_none_iff ..).mpr ⟨hoff₂, hi₂, hnext₂⟩
  have hcomm : (s.storeField ty₁ rs₁ ra₁ rb₁).storeField ty₂ rs₂ ra₂ rb₂ =
      (s.storeField ty₂ rs₂ ra₂ rb₂).storeField ty₁ rs₁ ra₁ rb₁ :=
    congrArg (fun m => { s with mem := m }) (writeField_comm _ _ hm hW₁ hW₂ h₁ h₂ hdisj)
  refine ⟨_, _, _, exec_stf_of_none h₁, exec_stf_of_none ((fieldFault_writeField ..).trans h₂),
    exec_stf_of_none h₂, ?_⟩
  rw [hcomm]
  exact exec_stf_of_none ((fieldFault_writeField ..).trans h₁)

end Sys2Proof.Machine
end

/-! PROOFS. The family of 42_add_sub.md. -/

/-! ## The carry and the borrow as numbers, and the flag that each command writes -/

section

namespace Sys2Proof.Machine

/-- Settles O41: the carry is 1 exactly when the sum of two words reaches 2^64, and the sum is below 2^65. -/
theorem carryIsUnsignedOverflow : Obligations.CarryIsUnsignedOverflow := by
  intro x y
  have := x.isLt
  have := y.isLt
  rw [carry64_eq]
  by_cases h : 2 ^ 64 ≤ x.toNat + y.toNat
  · rw [decide_eq_true h, Bool.toNat_true]
    omega
  · rw [decide_eq_false h, Bool.toNat_false]
    omega

/-- Settles O42: the borrow is the unsigned order, and a difference wraps exactly when it is negative. -/
theorem borrowIsUnsignedLess : Obligations.BorrowIsUnsignedLess := by
  intro x y
  have := x.isLt
  have := y.isLt
  rw [borrow64_eq, BitVec.toNat_sub]
  refine ⟨decide_eq_true_iff, ?_⟩
  by_cases h : x.toNat < y.toNat
  · rw [decide_eq_true h, Bool.toNat_true]
    omega
  · rw [decide_eq_false h, Bool.toNat_false]
    omega

/-- ADD's C is the carry out of the low word at W = 128, and 0 at every other width (R112). -/
theorem addValues_snd (ty : Ty) (x y : Value) :
    (addValues ty x y).2 = decide (ty.width = 128 ∧ 2 ^ 64 ≤ x.toNat % 2 ^ 64 + y.toNat % 2 ^ 64) := by
  by_cases hW : ty.width = 128
  · simp only [addValues, hW, if_true, carry64_eq, Value.lo_toNat, true_and]
  · simp only [addValues, hW, if_false, false_and, decide_false]

/-- SUB's C is the borrow out of the low word at W = 128, and 0 at every other width (R116). -/
theorem subValues_snd (ty : Ty) (x y : Value) :
    (subValues ty x y).2 = decide (ty.width = 128 ∧ x.toNat % 2 ^ 64 < y.toNat % 2 ^ 64) := by
  by_cases hW : ty.width = 128
  · simp only [subValues, hW, if_true, borrow64_eq, Value.lo_toNat, true_and]
  · simp only [subValues, hW, if_false, false_and, decide_false]

end Sys2Proof.Machine
end

/-! ## The whole next state of ADD and SUB -/

section

namespace Sys2Proof.Machine

/-- Settles O29: ADD writes the wrapped sum and the carry, and at W = 128 that sum is the one of the registers. -/
theorem addIsWrappedSum : Obligations.AddIsWrappedSum := by
  intro ty rd ra rb s _ sum
  have hsum : (addValues ty (s.readV ra) (s.readV rb)).1 = sum := addValues_fst ..
  refine ⟨?_, fun hW => ?_⟩
  · rw [exec_add, hsum, addValues_snd]
    rfl
  · rw [← hsum, addValues_fst_wide hW, BitVec.toNat_add]

/-- Settles O30: SUB writes the wrapped difference and the borrow, and at W = 128 that difference is the one of
the registers. -/
theorem subIsWrappedDifference : Obligations.SubIsWrappedDifference := by
  intro ty rd ra rb s _ diff
  have hdiff : (subValues ty (s.readV ra) (s.readV rb)).1 = diff := subValues_fst ..
  refine ⟨?_, fun hW => ?_⟩
  · rw [exec_sub, hdiff, subValues_snd]
    rfl
  · have := (s.readV rb).isLt
    rw [← hdiff, subValues_fst_wide hW, BitVec.toNat_sub]
    omega

/-- At W = 128 ADD's sum and carry do not depend on the rest of the type (R112). -/
theorem addValues_eq_of_width_128 {ty ty' : Ty} (hW : ty.width = 128) (hW' : ty'.width = 128) (x y : Value) :
    addValues ty x y = addValues ty' x y := by
  rw [addValues, addValues, if_pos hW, if_pos hW']

/-- At W = 128 SUB's difference and borrow do not depend on the rest of the type (R116). -/
theorem subValues_eq_of_width_128 {ty ty' : Ty} (hW : ty.width = 128) (hW' : ty'.width = 128) (x y : Value) :
    subValues ty x y = subValues ty' x y := by
  rw [subValues, subValues, if_pos hW, if_pos hW']

/-- Settles O49: at W = 128 both commands use the two-word kernel, which does not read S. -/
theorem wideAddSubIgnoreSignedness : Obligations.WideAddSubIgnoreSignedness := by
  intro rd ra rb s
  rw [exec_add, exec_add, exec_sub, exec_sub, addValues_eq_of_width_128 (ty' := ⟨false, 128⟩) rfl rfl,
    subValues_eq_of_width_128 (ty' := ⟨false, 128⟩) rfl rfl]
  exact ⟨rfl, rfl⟩

end Sys2Proof.Machine
end

/-! ## The laws of ADD and SUB: arithmetic modulo 2^W -/

section

namespace Sys2Proof

/-- A canonical pattern is congruent to its number modulo 2^W (R82 law 4). -/
theorem canon_toNat_modEq {ty : Ty} (hty : ty.legalValue = true) (x : Int) :
    (canon ty x).toNat ≡ x [ZMOD twoPow ty.width] := by
  have hread : norm ty (canon ty x).toNat = norm ty x := opnd_canon hty x
  have h := norm_emod_twoPow ty (canon ty x).toNat
  rw [hread] at h
  exact h.symm.trans (norm_emod_twoPow ty x)

@[simp] theorem canon_zero (ty : Ty) : canon ty 0 = 0 := by
  have := twoPow_pos (ty.width - 1)
  have h : norm ty 0 = 0 := by
    rw [norm, pattern, Int.zero_emod, valueOf, if_neg (by omega)]
  rw [canon, h]
  rfl

end Sys2Proof

namespace Sys2Proof.Machine

/-- ADD's result wraps the sum of the whole registers. -/
theorem addValues_fst_toNat (ty : Ty) (x y : Value) : (addValues ty x y).1 = canon ty (x.toNat + y.toNat) := by
  rw [addValues_fst, canon_add_opnd, add_comm, canon_add_opnd, add_comm]

/-- SUB's result wraps the difference of the whole registers. -/
theorem subValues_fst_toNat (ty : Ty) (x y : Value) : (subValues ty x y).1 = canon ty (x.toNat - y.toNat) := by
  rw [subValues_fst, canon_sub_opnd]
  exact canon_congr (Int.ModEq.sub_right _ (norm_emod_twoPow ty x.toNat))

/-- Settles O45: sums and differences wrap once, at the end, so each law is the integers' own. -/
theorem addSubLaws : Obligations.AddSubLaws := by
  intro ty x y z hty add sub
  have hadd (a b : Value) : add a b = canon ty (a.toNat + b.toNat) := addValues_fst_toNat ty a b
  have hsub (a b : Value) : sub a b = canon ty (a.toNat - b.toNat) := subValues_fst_toNat ty a b
  refine ⟨?undo, ?comm, ?assoc, ?zero, ?self⟩
  case undo =>
    calc sub (add x y) y
      _ = canon ty ((canon ty (x.toNat + y.toNat)).toNat - y.toNat) := by rw [hsub, hadd]
      _ = canon ty (x.toNat + y.toNat - y.toNat) := canon_congr ((canon_toNat_modEq hty _).sub_right _)
      _ = canon ty x.toNat := by rw [add_sub_cancel_right]
  case comm => rw [hadd, hadd, add_comm]
  case assoc =>
    calc add (add x y) z
      _ = canon ty ((canon ty (x.toNat + y.toNat)).toNat + z.toNat) := by rw [hadd, hadd x y]
      _ = canon ty (x.toNat + y.toNat + z.toNat) := canon_congr ((canon_toNat_modEq hty _).add_right _)
      _ = canon ty (x.toNat + (y.toNat + z.toNat)) := by rw [add_assoc]
      _ = canon ty (x.toNat + (canon ty (y.toNat + z.toNat)).toNat) :=
        (canon_congr ((canon_toNat_modEq hty _).add_left _)).symm
      _ = add x (add y z) := by rw [hadd x, hadd y z]
  case zero =>
    rw [hadd]
    exact congrArg (canon ty) (add_zero _)
  case self => rw [hsub, sub_self, canon_zero]

end Sys2Proof.Machine
end

/-! PROOFS. The family of 43_compare.md. -/

/-! ## CMP's result is the sign of the difference, the two-word kernel included -/

section

namespace Sys2Proof

/-- At W = 128 and S = 1 an operand is the register's two's complement number (R23). -/
theorem opnd_wide_signed (x : Value) : opnd ⟨true, 128⟩ x = x.toInt := by
  rw [opnd, norm_of_signed rfl, BitVec.ofInt_natCast, BitVec.ofNat_toNat, BitVec.setWidth_eq]

/-- At W = 128 and S = 0 an operand is the register's unsigned number (R23). -/
theorem opnd_wide_unsigned (x : Value) : opnd ⟨false, 128⟩ x = x.toNat := by
  rw [opnd, norm_of_unsigned rfl, BitVec.ofInt_natCast, BitVec.ofNat_toNat, BitVec.setWidth_eq]

@[simp] theorem opnd_zero (ty : Ty) : opnd ty 0 = 0 := by
  have := twoPow_pos (ty.width - 1)
  have h : pattern ty.width 0 = 0 := Int.zero_emod _
  simp [opnd, norm, h, valueOf, this]

/-- The unsigned number of a register, as an integer (R7). -/
theorem Value.natCast_eq_hi_lo (x : Value) : (x.toNat : Int) = x.hi.toNat * 2 ^ 64 + x.lo.toNat :=
  mod_cast x.toNat_eq_hi_lo

/-- The two's complement number of a register: only the high word has a sign (90_conflicts.md C1). -/
theorem Value.toInt_eq_hi_lo (x : Value) : x.toInt = x.hi.toInt * 2 ^ 64 + x.lo.toNat := by
  have hx := x.toNat_eq_hi_lo
  have := x.hi.isLt
  have := x.lo.isLt
  rw [BitVec.toInt_eq_toNat_cond, BitVec.toInt_eq_toNat_cond]
  split <;> split <;> omega

end Sys2Proof

namespace Sys2Proof.Machine

/-- The sign of a difference is the comparison of R130. -/
theorem sign_sub_eq_ite (a b : Int) : (a - b).sign = if a < b then -1 else if a = b then 0 else 1 := by
  rcases lt_trichotomy a b with h | rfl | h
  · rw [if_pos h, Int.sign_eq_neg_one_of_neg (by omega)]
  · simp
  · rw [if_neg h.not_gt, if_neg h.ne', Int.sign_eq_one_of_pos (by omega)]

/-- Two-word numbers are ordered by their high words and, only if these are equal, by their low words
(§4.4 in R132). The high words may be signed. -/
theorem sign_sub_two_words (h h' : Int) (l l' : Word) :
    (h * 2 ^ 64 + l.toNat - (h' * 2 ^ 64 + l'.toNat)).sign =
      if h = h' then ((l.toNat : Int) - l'.toNat).sign else (h - h').sign := by
  have := l.isLt
  have := l'.isLt
  simp only [sign_sub_eq_ite]
  split_ifs <;> omega

/-- The unsigned comparison of two words. -/
theorem sign_toNat_sub (x y : Word) :
    ((x.toNat : Int) - y.toNat).sign = if x ≠ y then (if x.ult y then -1 else 1) else 0 := by
  simp only [sign_sub_eq_ite, ne_eq, BitVec.toNat_eq, BitVec.ult, decide_eq_true_eq]
  split_ifs <;> omega

/-- The signed comparison of two words: the sign bits, then the 63 magnitude bits unsigned (R132). -/
theorem sign_toInt_sub (x y : Word) :
    (x.toInt - y.toInt).sign =
      if x.getLsbD 63 != y.getLsbD 63 then (if x.getLsbD 63 then -1 else 1)
      else if low63 x ≠ low63 y then (if (low63 x).ult (low63 y) then -1 else 1) else 0 := by
  have := x.isLt
  have := y.isLt
  simp only [sign_sub_eq_ite, getLsbD_63, BitVec.toNat_eq, BitVec.ult, low63_toNat, BitVec.toInt_eq_toNat_cond,
    bne_iff_ne, ne_eq, decide_eq_true_eq, decide_eq_decide]
  split_ifs <;> omega

/-- A word is its sign bit and its 63-bit magnitude. -/
theorem word_eq_iff (x y : Word) : x = y ↔ x.getLsbD 63 = y.getLsbD 63 ∧ low63 x = low63 y := by
  have := x.isLt
  have := y.isLt
  simp only [getLsbD_63, BitVec.toNat_eq, low63_toNat, decide_eq_decide]
  omega

/-- The two-word compare at S = 0 is the order of the unsigned numbers (R133). -/
theorem cmpWideUnsigned_eq_sign (x y : Value) : cmpWideUnsigned x y = ((x.toNat : Int) - y.toNat).sign := by
  rw [x.natCast_eq_hi_lo, y.natCast_eq_hi_lo, sign_sub_two_words, sign_toNat_sub, sign_toNat_sub, cmpWideUnsigned]
  by_cases h : x.hi = y.hi
  · simp [h]
  · simp [h, BitVec.toNat_inj]

/-- The two-word compare at S = 1 is the order of the two's complement numbers (R133). -/
theorem cmpWideSigned_eq_sign (x y : Value) : cmpWideSigned x y = (x.toInt - y.toInt).sign := by
  rw [x.toInt_eq_hi_lo, y.toInt_eq_hi_lo, sign_sub_two_words, sign_toNat_sub, sign_toInt_sub, cmpWideSigned]
  by_cases h : x.hi = y.hi
  · simp [h]
  · have hne : x.hi.getLsbD 63 = y.hi.getLsbD 63 → low63 x.hi ≠ low63 y.hi := by
      rwa [word_eq_iff, not_and] at h
    rw [if_neg (mt BitVec.toInt_inj.mp h)]
    by_cases hs : x.hi.getLsbD 63 = y.hi.getLsbD 63
    · simp only [hne hs, ne_eq, not_false_eq_true, if_true]
    · simp only [bne_iff_ne, ne_eq, hs, not_false_eq_true, if_true]

/-- CMP's result is the sign of the difference of the operand values at every type (R130, R133). -/
theorem compareValues_eq_sign (ty : Ty) (x y : Value) : compareValues ty x y = (opnd ty x - opnd ty y).sign := by
  by_cases hW : ty.width = 128
  · obtain ⟨S, W⟩ := ty
    obtain rfl : W = 128 := hW
    cases S with
    | true => rw [opnd_wide_signed, opnd_wide_signed, ← cmpWideSigned_eq_sign]; rfl
    | false => rw [opnd_wide_unsigned, opnd_wide_unsigned, ← cmpWideUnsigned_eq_sign]; rfl
  · rw [compareValues, if_neg hW, sign_sub_eq_ite]

end Sys2Proof.Machine
end

/-! ## The whole next state of CMP, and the total order -/

section

namespace Sys2Proof.Machine

theorem exec_cmp (ty : Ty) (rd ra rb : Reg) (s : State) :
    exec (.cmp ty rd ra rb) s =
      .next (s.writeV rd (BitVec.ofInt 128 (compareValues ty (s.readV ra) (s.readV rb)))) := rfl

/-- The patterns that CMP writes for the three relations (R131). -/
theorem ofInt_sign_sub (a b : Int) :
    BitVec.ofInt 128 (a - b).sign = if a < b then BitVec.allOnes 128 else if a = b then 0 else 1 := by
  rw [sign_sub_eq_ite]
  split_ifs <;> rfl

/-- Settles O31: CMP writes the pattern of the sign of the difference. -/
theorem cmpIsNumericOrder : Obligations.CmpIsNumericOrder := by
  intro ty rd ra rb s _ a b
  rw [exec_cmp, compareValues_eq_sign, ofInt_sign_sub]
  rfl

/-! The six predicates, read from CMP's result, are the six relations of the operand values (R134). -/

theorem isLess_compareValues (ty : Ty) (x y : Value) :
    isLess (compareValues ty x y) = true ↔ opnd ty x < opnd ty y := by
  rw [compareValues_eq_sign, isLess, decide_eq_true_iff, Int.sign_eq_neg_one_iff_neg, sub_neg]

theorem isEqual_compareValues (ty : Ty) (x y : Value) :
    isEqual (compareValues ty x y) = true ↔ opnd ty x = opnd ty y := by
  rw [compareValues_eq_sign, isEqual, decide_eq_true_iff, Int.sign_eq_zero_iff_zero, sub_eq_zero]

theorem isGreater_compareValues (ty : Ty) (x y : Value) :
    isGreater (compareValues ty x y) = true ↔ opnd ty y < opnd ty x := by
  rw [compareValues_eq_sign, isGreater, decide_eq_true_iff, Int.sign_eq_one_iff_pos, sub_pos]

theorem isLessEqual_iff (r : Int) : isLessEqual r = true ↔ ¬isGreater r = true := by
  simp [isLessEqual, isGreater]

theorem isGreaterEqual_iff (r : Int) : isGreaterEqual r = true ↔ ¬isLess r = true := by
  simp [isGreaterEqual, isLess]

theorem isNotEqual_iff (r : Int) : isNotEqual r = true ↔ ¬isEqual r = true := by
  simp [isNotEqual, isEqual]

theorem isLessEqual_compareValues (ty : Ty) (x y : Value) :
    isLessEqual (compareValues ty x y) = true ↔ opnd ty x ≤ opnd ty y := by
  rw [isLessEqual_iff, isGreater_compareValues, not_lt]

theorem isGreaterEqual_compareValues (ty : Ty) (x y : Value) :
    isGreaterEqual (compareValues ty x y) = true ↔ opnd ty y ≤ opnd ty x := by
  rw [isGreaterEqual_iff, isLess_compareValues, not_lt]

theorem isNotEqual_compareValues (ty : Ty) (x y : Value) :
    isNotEqual (compareValues ty x y) = true ↔ opnd ty x ≠ opnd ty y := by
  rw [isNotEqual_iff, isEqual_compareValues]

/-- CMP's result is one of three (R130). -/
theorem compareValues_trichotomy (ty : Ty) (x y : Value) :
    compareValues ty x y = -1 ∨ compareValues ty x y = 0 ∨ compareValues ty x y = 1 := by
  rw [compareValues_eq_sign, sign_sub_eq_ite]
  split_ifs <;> simp

/-- CMP is antisymmetric (R134). -/
theorem compareValues_swap (ty : Ty) (x y : Value) : compareValues ty y x = -compareValues ty x y := by
  rw [compareValues_eq_sign, compareValues_eq_sign, ← Int.sign_neg, neg_sub]

/-- signum is the sign of the value, since a register that holds 0 has the value 0 at every type (R134). -/
theorem signum_eq_sign (ty : Ty) (x : Value) : signum ty x = (opnd ty x).sign := by
  rw [signum, compareValues_eq_sign, opnd_zero, sub_zero]

/-- CMP is transitive (R134). -/
theorem isLessEqual_trans {ty : Ty} {x y z : Value} (hxy : isLessEqual (compareValues ty x y) = true)
    (hyz : isLessEqual (compareValues ty y z) = true) : isLessEqual (compareValues ty x z) = true := by
  rw [isLessEqual_compareValues] at hxy hyz ⊢
  exact hxy.trans hyz

/-- Settles O47: the predicates are the relations of the values, and the laws are those of the integers' order. -/
theorem compareIsTotalOrder : Obligations.CompareIsTotalOrder := fun ty x y _ _ =>
  ⟨isLess_compareValues ty x y, isEqual_compareValues ty x y, isGreater_compareValues ty x y,
    isLessEqual_compareValues ty x y, isGreaterEqual_compareValues ty x y, isNotEqual_compareValues ty x y,
    compareValues_trichotomy ty x y, compareValues_swap ty x y, isLessEqual_trans, signum_eq_sign ty x⟩

end Sys2Proof.Machine
end

/-! PROOFS. The family of 44_shift.md. -/

/-! ## The single-bit shifts of two words are doubling and halving -/

section

namespace Sys2Proof.Machine

/-- A bit of a word as a number. -/
theorem getLsbD_toNat (x : Word) (i : Nat) : (x.getLsbD i).toNat = x.toNat / 2 ^ i % 2 := Nat.toNat_testBit ..

/-- A moved bit is a number with its new place's weight (R141). -/
theorem moveBit_toNat (x : Word) (i : Nat) {j : Nat} (hj : j < 64) :
    (moveBit x i j).toNat = 2 ^ j * (x.toNat / 2 ^ i % 2) := by
  have hlt : 2 ^ j < 2 ^ 64 := Nat.pow_lt_pow_right (by decide) hj
  have hbit : x.toNat / 2 ^ i % 2 = 0 ∨ x.toNat / 2 ^ i % 2 = 1 := Nat.mod_two_eq_zero_or_one _
  rw [moveBit, getLsbD_toNat, BitVec.toNat_ofNat, mul_comm]
  obtain h | h := hbit <;> rw [h]
  · rfl
  · rw [mul_one, Nat.mod_eq_of_lt hlt]

/-- A word shifted left by one, with another word's top bit entering at its bottom. -/
theorem shiftLeft_or_moveBit_toNat (x y : Word) :
    (x <<< 1 ||| moveBit y 63 0).toNat = 2 * (x.toNat % 2 ^ 63) + y.toNat / 2 ^ 63 := by
  have := y.isLt
  have hx : (x <<< 1).toNat = 2 ^ 1 * (x.toNat % 2 ^ 63) := by
    rw [BitVec.toNat_shiftLeft, Nat.shiftLeft_eq]
    omega
  rw [BitVec.toNat_or, moveBit_toNat _ _ (by decide), hx, ← Nat.two_pow_add_eq_or_of_lt (by omega)]
  omega

/-- A word shifted right by one, with a word's bit entering at its top. -/
theorem shiftRight_or_moveBit_toNat (x y : Word) (i : Nat) :
    (x >>> 1 ||| moveBit y i 63).toNat = 2 ^ 63 * (y.toNat / 2 ^ i % 2) + x.toNat / 2 := by
  have := x.isLt
  rw [BitVec.toNat_or, moveBit_toNat _ _ (by decide), BitVec.toNat_ushiftRight, Nat.shiftRight_eq_div_pow,
    Nat.or_comm, ← Nat.two_pow_add_eq_or_of_lt (by omega), pow_one]

/-- R141: shl1 doubles. -/
theorem shl1_eq (x : Value) : shl1 x = x <<< 1 := by
  apply BitVec.eq_of_toNat_eq
  have := x.toNat_eq_hi_lo
  have := x.lo.isLt
  rw [shl1, joinWords_toNat, shiftLeft_or_moveBit_toNat, BitVec.toNat_shiftLeft, BitVec.toNat_shiftLeft,
    Nat.shiftLeft_eq, Nat.shiftLeft_eq]
  omega

/-- R141: shr1z halves the unsigned number. -/
theorem shr1z_eq (x : Value) : shr1z x = x >>> 1 := by
  apply BitVec.eq_of_toNat_eq
  have := x.toNat_eq_hi_lo
  rw [shr1z, joinWords_toNat, shiftRight_or_moveBit_toNat, BitVec.toNat_ushiftRight,
    BitVec.toNat_ushiftRight, Nat.shiftRight_eq_div_pow, Nat.shiftRight_eq_div_pow]
  omega

/-- A word shifted right by one that keeps its sign bit is halved as a signed number. -/
theorem shiftRight_or_sign_toInt (x : Word) : (x >>> 1 ||| moveBit x 63 63).toInt = x.toInt / 2 := by
  have := x.isLt
  rw [BitVec.toInt_eq_toNat_cond, BitVec.toInt_eq_toNat_cond, shiftRight_or_moveBit_toNat]
  split <;> split <;> omega

/-- R141: sar1 halves the signed number. -/
theorem sar1_eq (x : Value) : sar1 x = x.sshiftRight 1 := by
  apply BitVec.eq_of_toInt_eq
  have := x.toInt_eq_hi_lo
  have hparity : x.hi.toNat % 2 = x.hi.toInt % 2 := by
    rw [BitVec.toInt_eq_toNat_cond]
    split <;> omega
  rw [Value.toInt_eq_hi_lo (sar1 x), sar1, joinWords_hi, joinWords_lo, shiftRight_or_sign_toInt,
    shiftRight_or_moveBit_toNat, BitVec.toInt_sshiftRight, Int.shiftRight_eq_div_pow]
  omega

/-- Settles O43: each shift of two words doubles or halves the register's number, as the shift of the
register does. -/
theorem singleBitShiftsCrossTheWords : Obligations.SingleBitShiftsCrossTheWords := fun x =>
  ⟨shl1_eq x, sar1_eq x, shr1z_eq x⟩

end Sys2Proof.Machine
end

/-! ## The repeated single-bit shift at W = 128 is the formula -/

section

namespace Sys2Proof.Machine

/-- The k-fold repetition of a step is the shift by k when the shift by k + 1 is one more step. -/
theorem iterate_eq_of_succ {step : Value → Value} {shift : Nat → Value → Value}
    (hzero : ∀ x, shift 0 x = x) (hsucc : ∀ k x, shift (k + 1) x = step (shift k x)) (k : Nat) (x : Value) :
    step^[k] x = shift k x := by
  induction k with
  | zero => exact (hzero x).symm
  | succ k ih => rw [Function.iterate_succ_apply', ih, hsucc]

theorem shiftWide_left (signed : Bool) (k : Nat) (x : Value) : shiftWide signed .left k x = x <<< k :=
  iterate_eq_of_succ (shift := fun k x => x <<< k) BitVec.shiftLeft_zero
    (fun k x => (x.shiftLeft_add k 1).trans (shl1_eq _).symm) k x

theorem shiftWide_zero (signed : Bool) (k : Nat) (x : Value) : shiftWide signed .zero k x = x >>> k :=
  iterate_eq_of_succ (shift := fun k x => x >>> k) BitVec.ushiftRight_zero
    (fun k x => (x.shiftRight_add k 1).trans (shr1z_eq _).symm) k x

theorem shiftWide_right_signed (k : Nat) (x : Value) : shiftWide true .right k x = x.sshiftRight k :=
  iterate_eq_of_succ (shift := fun k x => x.sshiftRight k) (fun _ => BitVec.sshiftRight_zero)
    (fun _ _ => BitVec.sshiftRight_add.trans (sar1_eq _).symm) k x

/-- At W = 128 the formula of a left shift is the left shift of the register (R143). -/
theorem shiftFormula_wide_left (signed : Bool) (k : Nat) (x : Value) :
    shiftFormula ⟨signed, 128⟩ .left k x = x <<< k := by
  have hpow : BitVec.ofInt 128 (twoPow k) = BitVec.twoPow 128 k := by
    apply BitVec.eq_of_toNat_eq
    rw [twoPow, BitVec.ofInt_natCast, BitVec.toNat_ofNat, BitVec.toNat_twoPow]
  rw [shiftFormula, canon_of_width_128 rfl, BitVec.ofInt_mul, ofInt_opnd rfl, hpow, BitVec.shiftLeft_eq_mul_twoPow]

/-- At W = 128 the fill-zero formula is the logical right shift of the register (R143). -/
theorem shiftFormula_wide_zero (signed : Bool) (k : Nat) (x : Value) :
    shiftFormula ⟨signed, 128⟩ .zero k x = x >>> k := by
  have hpattern : pattern 128 (x.toNat : Int) = x.toNat := by
    have := x.isLt
    exact Int.emod_eq_of_lt (by omega) (by unfold twoPow; omega)
  have hdiv : (x.toNat : Int) / twoPow k = (x >>> k).toNat := by
    rw [BitVec.toNat_ushiftRight, Nat.shiftRight_eq_div_pow]
    rfl
  rw [shiftFormula, canon_of_width_128 rfl, hpattern, hdiv, BitVec.ofInt_natCast, BitVec.ofNat_toNat,
    BitVec.setWidth_eq]

/-- At W = 128 and S = 1 the formula of a right shift is the arithmetic right shift of the register (R143). -/
theorem shiftFormula_wide_right_signed (k : Nat) (x : Value) :
    shiftFormula ⟨true, 128⟩ .right k x = x.sshiftRight k := by
  rw [shiftFormula, if_pos rfl, canon_of_width_128 rfl, opnd_wide_signed, twoPow, ← Int.shiftRight_eq_div_pow]
  rfl

/-- R142: the k-fold single-bit shift is the direct formula at W = 128, for every k. -/
theorem shiftWide_eq_shiftFormula (signed : Bool) (dir : ShiftDir) (k : Nat) (x : Value) :
    shiftWide signed dir k x = shiftFormula ⟨signed, 128⟩ dir k x := by
  cases dir with
  | left => rw [shiftWide_left, shiftFormula_wide_left]
  | zero => rw [shiftWide_zero, shiftFormula_wide_zero]
  | right =>
    cases signed with
    | true => rw [shiftWide_right_signed, shiftFormula_wide_right_signed]
    | false => exact (shiftWide_zero false k x).trans (shiftFormula_wide_zero false k x).symm

/-- Settles O44: both sides are the register's own shift by k, left, logical right or arithmetic right. -/
theorem repeatedShiftIsDirectShift : Obligations.RepeatedShiftIsDirectShift := fun signed dir k x _ =>
  shiftWide_eq_shiftFormula signed dir k x

/-- A shift is the formula of R143 at every type, the repeated single-bit shift included. -/
theorem shiftValue_eq_shiftFormula (ty : Ty) (d : ShiftDir × Nat) (x : Value) :
    shiftValue ty d x = shiftFormula ty d.1 d.2 x := by
  obtain ⟨S, W⟩ := ty
  by_cases hW : W = 128
  · subst hW
    exact shiftWide_eq_shiftFormula ..
  · exact if_neg hW

end Sys2Proof.Machine
end

/-! ## Counts, and the whole next state of SHL, SHR and SHRZ -/

section

namespace Sys2Proof

/-- The count is the signed number of the register's low 32 bits (R64, R140). -/
theorem shiftCount_eq_toInt (x : Value) : shiftCount x = (x.setWidth 32).toInt := by
  have h : shiftCount x = norm ⟨true, 32⟩ x.toNat := rfl
  rw [h, norm_of_signed rfl, BitVec.ofInt_natCast, BitVec.ofNat_toNat]

/-- At S = 0 an operand's value is its W-bit pattern (R9). -/
theorem opnd_of_unsigned {ty : Ty} (h : ty.signed = false) (x : Value) :
    opnd ty x = pattern ty.width (x.toNat : Int) := by
  rw [opnd, norm, valueOf, if_neg (by simp [h])]

end Sys2Proof

namespace Sys2Proof.Machine

theorem exec_shl (ty : Ty) (rd ra rb : Reg) (s : State) :
    exec (.shl ty rd ra rb) s = .next (s.writeV rd
      (shiftValue ty (resolveCount .left .right ty.width (shiftCount (s.readV rb))) (s.readV ra))) := rfl
theorem exec_shr (ty : Ty) (rd ra rb : Reg) (s : State) :
    exec (.shr ty rd ra rb) s = .next (s.writeV rd
      (shiftValue ty (resolveCount .right .left ty.width (shiftCount (s.readV rb))) (s.readV ra))) := rfl
theorem exec_shrz (ty : Ty) (rd ra rb : Reg) (s : State) :
    exec (.shrz ty rd ra rb) s = .next (s.writeV rd
      (shiftValue ty (resolveCount .zero .left ty.width (shiftCount (s.readV rb))) (s.readV ra))) := rfl

/-- The amount is |c| mod W in either direction (R140). -/
theorem resolveCount_eq (own mirror : ShiftDir) (W : Nat) (c : Int) :
    resolveCount own mirror W c = (if 0 ≤ c then own else mirror, c.natAbs % W) := by
  unfold resolveCount
  by_cases hc : 0 ≤ c
  · obtain ⟨n, rfl⟩ := Int.eq_ofNat_of_zero_le hc
    rw [if_pos hc, if_pos hc]
    rfl
  · obtain ⟨n, rfl⟩ := Int.exists_eq_neg_ofNat (by omega : c ≤ 0)
    rw [if_neg hc, if_neg hc, neg_neg, Int.natAbs_neg]
    rfl

theorem shiftValue_left (ty : Ty) (k : Nat) (x : Value) :
    shiftValue ty (.left, k) x = canon ty (opnd ty x * 2 ^ k) := by
  rw [shiftValue_eq_shiftFormula, shiftFormula, twoPow_eq_pow]

/-- The right shift is floor division for either S: at S = 0 the pattern is the value (R143). -/
theorem shiftValue_right (ty : Ty) (k : Nat) (x : Value) :
    shiftValue ty (.right, k) x = canon ty (opnd ty x / 2 ^ k) := by
  rw [shiftValue_eq_shiftFormula, shiftFormula, twoPow_eq_pow]
  cases hs : ty.signed with
  | true => rfl
  | false =>
    rw [opnd_of_unsigned hs]
    rfl

theorem shiftValue_zero (ty : Ty) (k : Nat) (x : Value) :
    shiftValue ty (.zero, k) x = canon ty ((x.toNat % 2 ^ ty.width / 2 ^ k : Nat) : Int) := by
  rw [shiftValue_eq_shiftFormula]
  rfl

/-- A shift by a resolved count: the own direction for c ≥ 0, the mirror for c < 0 (R140). -/
theorem shiftValue_resolveCount (own mirror : ShiftDir) (ty : Ty) (c : Int) (x : Value) :
    shiftValue ty (resolveCount own mirror ty.width c) x =
      if 0 ≤ c then shiftValue ty (own, c.natAbs % ty.width) x
      else shiftValue ty (mirror, c.natAbs % ty.width) x := by
  rw [resolveCount_eq]
  split <;> rfl

/-- Settles O32: SHL is the formula in the direction its count resolves to, its mirror being R. -/
theorem shlMultiplies : Obligations.ShlMultiplies := by
  intro ty rd ra rb s _ c k a
  rw [exec_shl, shiftCount_eq_toInt, shiftValue_resolveCount, shiftValue_left, shiftValue_right]
  rfl

/-- Settles O33: SHR is the formula R, its mirror being L. -/
theorem shrDividesByFloor : Obligations.ShrDividesByFloor := by
  intro ty rd ra rb s _ c k a
  rw [exec_shr, shiftCount_eq_toInt, shiftValue_resolveCount, shiftValue_left, shiftValue_right]
  rfl

/-- Settles O34: SHRZ is the formula Z, its mirror being L. -/
theorem shrzShiftsThePattern : Obligations.ShrzShiftsThePattern := by
  intro ty rd ra rb s _ c k p
  rw [exec_shrz, shiftCount_eq_toInt, shiftValue_resolveCount, shiftValue_zero, shiftValue_left]
  rfl

/-- Settles O50: at S = 0 the direction R is Z, and both commands have the mirror L. -/
theorem unsignedShrIsShrz : Obligations.UnsignedShrIsShrz := by
  intro W rd ra rb s
  have hright (k : Nat) (x : Value) :
      shiftValue ⟨false, W⟩ (.right, k) x = shiftValue ⟨false, W⟩ (.zero, k) x := rfl
  rw [exec_shr, exec_shrz, shiftValue_resolveCount, shiftValue_resolveCount, hright]

end Sys2Proof.Machine
end

/-! ## The laws of the shifter -/

section

namespace Sys2Proof

/-- Every type has the value 0 (R10). -/
theorem zero_mem_range {ty : Ty} (hW : 1 ≤ ty.width) : ty.minVal ≤ 0 ∧ 0 ≤ ty.maxVal := by
  have hzero : norm ty 0 = 0 := opnd_zero ty
  simpa only [hzero] using norm_mem_range hW 0

/-- Floor division by a power of two keeps a value in its type's range. -/
theorem ediv_two_pow_mem_range {ty : Ty} (hW : 1 ≤ ty.width) {a : Int} (ha : ty.minVal ≤ a ∧ a ≤ ty.maxVal)
    (k : Nat) : ty.minVal ≤ a / 2 ^ k ∧ a / 2 ^ k ≤ ty.maxVal := by
  obtain ⟨hmin, hmax⟩ := zero_mem_range hW
  have hpow : (1 : Int) ≤ 2 ^ k := one_le_pow₀ (by decide)
  constructor
  · rw [Int.le_ediv_iff_mul_le (by omega)]
    exact (mul_le_mul_of_nonpos_left hpow hmin).trans ((mul_one _).trans_le ha.1)
  · rw [← Int.lt_add_one_iff, Int.ediv_lt_iff_lt_mul (by omega)]
    exact (Int.lt_add_one_of_le ha.2).trans_le (le_mul_of_one_le_right (by omega) hpow)

end Sys2Proof

namespace Sys2Proof.Machine

open Laws.EncodeFields (width_of_value)

/-- A count of at least 0 acts modulo W (R147 law 1). -/
theorem resolveCount_emod (own mirror : ShiftDir) (W : Nat) {c : Int} (hc : 0 ≤ c) :
    resolveCount own mirror W (c % W) = resolveCount own mirror W c := by
  have hmod : 0 ≤ c % W := by
    obtain ⟨n, rfl⟩ := Int.eq_ofNat_of_zero_le hc
    exact Int.natCast_nonneg (n % W)
  rw [resolveCount, resolveCount, if_pos hmod, if_pos hc, Int.emod_emod]

/-- A negative count resolves to the mirror with the negated count (R147 law 2). -/
theorem resolveCount_neg (own mirror other : ShiftDir) (W : Nat) {c : Int} (hc : 0 < c) :
    resolveCount own mirror W (-c) = resolveCount mirror other W c := by
  rw [resolveCount, resolveCount, if_neg (by omega), if_pos hc.le, neg_neg]

/-- A count below W is its own amount (R140). -/
theorem resolveCount_natCast (own mirror : ShiftDir) {W k : Nat} (hk : k < W) :
    resolveCount own mirror W k = (own, k) := by
  rw [resolveCount_eq, if_pos (Int.natCast_nonneg k), Int.natAbs_natCast, Nat.mod_eq_of_lt hk]

/-- One more place to the left doubles the result (R147 law 3). -/
theorem shiftValue_left_succ {ty : Ty} (hty : ty.legalValue = true) (k : Nat) (x : Value) :
    shiftValue ty (.left, k + 1) x =
      (addValues ty (shiftValue ty (.left, k) x) (shiftValue ty (.left, k) x)).1 := by
  have hmod := canon_toNat_modEq hty (opnd ty x * 2 ^ k)
  rw [shiftValue_left, shiftValue_left, addValues_fst_toNat, pow_succ, ← mul_assoc, mul_two]
  exact (canon_congr (hmod.add hmod)).symm

/-- The right shift of a value is the value's floor division, which needs no wrap (R147 law 4). -/
theorem opnd_shiftValue_right {ty : Ty} (hty : ty.legalValue = true) (k : Nat) (x : Value) :
    opnd ty (shiftValue ty (.right, k) x) = opnd ty x / 2 ^ k := by
  obtain ⟨hW, -⟩ := width_of_value hty
  rw [shiftValue_right, opnd_canon hty]
  exact (eq_norm hW (ediv_two_pow_mem_range hW (norm_mem_range hW _) k) rfl).symm

/-- Settles O48: laws 1 and 2 are about the resolved count, laws 3 and 4 about the formulas L and R. -/
theorem shifterLaws : Obligations.ShifterLaws := by
  intro ty x hty shl shr shrz
  refine ⟨fun c hc => ?modulo, fun c hc _ => ?mirror, fun k hk hkW => ?double, fun _ k hkW => ?floor⟩
  case modulo =>
    simp only [shl, shr, shrz, resolveCount_emod _ _ _ hc, and_self]
  case mirror =>
    have hneg (own mirror other : ShiftDir) : shiftValue ty (resolveCount own mirror ty.width (-c)) x =
        shiftValue ty (resolveCount mirror other ty.width c) x := by rw [resolveCount_neg _ _ _ _ hc]
    exact ⟨hneg .., hneg .., hneg ..⟩
  case double =>
    obtain ⟨n, rfl⟩ := Nat.exists_eq_add_of_le' hk
    have hpred : ((n + 1 : Nat) : Int) - 1 = n := by omega
    simp only [shl]
    rw [hpred, resolveCount_natCast _ _ hkW, resolveCount_natCast _ _ (by omega), shiftValue_left_succ hty]
  case floor =>
    simp only [shr]
    rw [resolveCount_natCast _ _ hkW, opnd_shiftValue_right hty]

end Sys2Proof.Machine
end

/-! PROOFS. The family of 60_exceptions.md. -/

/-! ## A step always answers, and what a halted or idle unit does -/

section

namespace Sys2Proof.Machine

/-- Settles O11: the idle step (R176). -/
theorem idleStepHoldsState : Obligations.IdleStepHoldsState := fun _ => step_nil

/-- A transaction answers, but for one that names a word of M at or above NWORDS (R27). -/
theorem transact_next_or_refused (x : HostTxn) (s : State) :
    (∃ t, transact x s = .next t) ∨
      ∃ j, (x = .rdm j ∨ ∃ w, x = .wrm j w) ∧ s.mem.nwords ≤ j ∧
        transact x s = .refused (.hostIndexOutOfRange j) := by
  cases x with
  | issue c => exact .inl (hIssue_next c s)
  | rdm j =>
    obtain hj | hj := Nat.lt_or_ge j s.mem.nwords
    · exact .inl ⟨_, hRdm_of_lt hj⟩
    · exact .inr ⟨j, .inl rfl, hj, hRdm_of_ge hj⟩
  | wrm j w =>
    obtain hj | hj := Nat.lt_or_ge j s.mem.nwords
    · exact .inl ⟨_, hWrm_of_lt w hj⟩
    · exact .inr ⟨j, .inr ⟨w, rfl⟩, hj, hWrm_of_ge w hj⟩
  | _ => exact .inl ⟨_, rfl⟩

/-- Settles O12: a step is idle or the transaction at the head of the port. -/
theorem stepAlwaysAnswers : Obligations.StepAlwaysAnswers := by
  intro s
  cases hport : s.port with
  | nil => exact .inl ⟨s, step_nil hport⟩
  | cons x rest =>
    rw [step_cons hport]
    refine (transact_next_or_refused x (s.withPort rest)).imp_right ?_
    rintro ⟨j, rfl | ⟨w, rfl⟩, hj, hstep⟩
    · exact ⟨j, rest, .inl rfl, hj, hstep⟩
    · exact ⟨j, rest, .inr ⟨w, rfl⟩, hj, hstep⟩

/-- Settles O8: H_ISSUE is rejected, and the other transactions do not look at F. -/
theorem haltedUnitRejectsIssue : Obligations.HaltedUnitRejectsIssue := by
  intro s rest hf
  obtain ⟨hrdv, hwrv, hrdm, hwrm, hrdstatus, hrdfcmd, -, -⟩ := hostTransactionEffects s rest
  refine ⟨fun c hport => ?issue, hrdv, hwrv, hrdm, fun j w hj hport => ?wrm, hrdstatus, hrdfcmd⟩
  case issue => exact (step_cons hport).trans (hIssue_of_halted (s := s.withPort rest) hf)
  case wrm =>
    obtain ⟨m, hstep, -, hread, -⟩ := hwrm j w hj hport
    exact ⟨m, hstep, hread⟩

/-- Settles O25, by induction over the words: each is rejected, and the unit stays halted. -/
theorem haltedRunChangesNothing : Obligations.HaltedRunChangesNothing := by
  intro cs s hs
  induction cs generalizing s with
  | nil => rfl
  | cons c cs ih =>
    rw [runProgram, hIssue_of_halted hs]
    simpa [State.answer] using ih (s.answer (some .rejected)) hs

/-- Settles O7: H_ISSUE on a unit that is not halted, of a word that the decoder rejects. -/
theorem undecodableWordTakesFault : Obligations.UndecodableWordTakesFault := fun s _ rest _ hport hf hd =>
  (step_cons hport).trans (hIssue_of_error (s := s.withPort rest) hf hd)

/-- A run of one step is that step, in whichever of the three ways it ends. -/
theorem core_run_one (s : State) : Sys2Proof.core.run 1 s = step s := by
  cases h : step s with
  | next t => exact core_run_succ h
  | fault r => cases r
  | refused r => simp [Host.Core.run, Sys2Proof.core, h]

/-- Settles O13: H_CLEAR gives a unit that is not halted, which issues the next word. -/
theorem clearThenIssueExecutes : Obligations.ClearThenIssueExecutes := by
  intro s c rest hport u
  have hclear : step s = .next ((s.withPort (.issue c :: rest)).clearFault.answer none) := step_cons hport
  rw [core_run_succ hclear, core_run_one, step_cons rfl]
  cases hd : decode c with
  | ok i => exact hIssue_of_ok rfl hd
  | error code => exact hIssue_of_error rfl hd

end Sys2Proof.Machine
end

/-! ## Which fault a command raises -/

section

namespace Sys2Proof.Machine

/-- A field that lies in M passes both checks (R90). -/
theorem fieldFault_of_inside {m : Memory} {W i off : Nat} (hoff : off ≤ 63)
    (hin : ¬(m.nwords ≤ i ∨ 64 < off + W ∧ m.nwords ≤ i + 1)) : fieldFault m W i off = none :=
  (fieldFault_eq_none_iff ..).mpr ⟨hoff, by omega, fun h => by omega⟩

/-- The check of LDF or STF that a command fails in a state, if any (R90). -/
def codecFault (i : Instr) (s : State) : Option FaultCode :=
  if i.op = 2 ∨ i.op = 3 then
    fieldFault s.mem i.ty.width (wordIndex (s.readV i.regFields.2.1)) (bitOffset (s.readV i.regFields.2.2))
  else none

/-- A command whose check fails enters that fault (R163). -/
theorem exec_of_codecFault_eq_some {i : Instr} {s : State} {code : FaultCode} (h : codecFault i s = some code) :
    exec i s = .next (s.takeFault code (encode i)) := by
  cases i with
  | ldf ty rd ra rb => exact exec_codec_of_some (.inl rfl) h
  | stf ty rs ra rb => exact exec_codec_of_some (.inr rfl) h
  | _ => cases h

/-- A command whose checks pass keeps F (R25). -/
theorem exec_of_codecFault_eq_none {i : Instr} {s : State} (h : codecFault i s = none) :
    ∃ t, exec i s = .next t ∧ t.status.f = s.status.f := by
  cases i with
  | ldf ty rd ra rb => exact ⟨_, execLdf_of_none h, rfl⟩
  | stf ty rs ra rb => exact ⟨_, execStf_of_none h, rfl⟩
  | _ => exact ⟨_, rfl, rfl⟩

/-- The fault that a word raises in a state when it is issued: the decoder's, or that of its command (R162). -/
def issueFault (c : CmdWord) (s : State) : Option FaultCode :=
  match decode c with
  | .error code => some code
  | .ok i => codecFault i s

theorem issueFault_of_error {c : CmdWord} {code : FaultCode} (hd : decode c = .error code) (s : State) :
    issueFault c s = some code := by
  rw [issueFault, hd]

theorem issueFault_of_ok {c : CmdWord} {i : Instr} (hd : decode c = .ok i) (s : State) :
    issueFault c s = codecFault i s := by
  rw [issueFault, hd]

/-- A word that raises a fault enters it, with itself in FCMD, and does nothing else (R163, R164). -/
theorem hIssue_of_issueFault_eq_some {c : CmdWord} {s : State} {code : FaultCode} (hf : s.status.f = false)
    (h : issueFault c s = some code) :
    hIssue c s = .next ((s.answer (some .accepted)).takeFault code c) := by
  cases hd : decode c with
  | error code' =>
    cases (issueFault_of_error hd s).symm.trans h
    exact hIssue_of_error hf hd
  | ok i =>
    have hexec := exec_of_codecFault_eq_some (s := s.answer (some .accepted)) ((issueFault_of_ok hd s).symm.trans h)
    rwa [hIssue_of_ok hf hd, ← encode_eq_of_decode hd]

/-- A word that raises no fault leaves the unit running: only fault entry sets F (R163). -/
theorem hIssue_of_issueFault_eq_none {c : CmdWord} {s : State} (hf : s.status.f = false)
    (h : issueFault c s = none) : ∃ t, hIssue c s = .next t ∧ t.status.f = false := by
  cases hd : decode c with
  | error code => cases (issueFault_of_error hd s).symm.trans h
  | ok i =>
    obtain ⟨t, hexec, ht⟩ :=
      exec_of_codecFault_eq_none (s := s.answer (some .accepted)) ((issueFault_of_ok hd s).symm.trans h)
    exact ⟨t, (hIssue_of_ok hf hd).trans hexec, ht.trans hf⟩

/-- Settles O22: the word raised a fault, since without one F stays 0, and fault entry is all it did. -/
theorem faultsArePrecise : Obligations.FaultsArePrecise := by
  intro s t c rest hport hf h ht
  have hissue : hIssue c (s.withPort rest) = .next t := (step_cons hport).symm.trans h
  cases hfault : issueFault c (s.withPort rest) with
  | some code =>
    cases (hIssue_of_issueFault_eq_some (s := s.withPort rest) hf hfault).symm.trans hissue
    exact ⟨code, rfl⟩
  | none =>
    obtain ⟨u, hu, huf⟩ := hIssue_of_issueFault_eq_none (s := s.withPort rest) hf hfault
    cases hu.symm.trans hissue
    cases huf.symm.trans ht

/-- The check that a decoded command fails, read on the fields of its word (R60, R90). -/
theorem issueFault_of_fields {c : CmdWord} {i : Instr} {ra rb : Nat} (hd : decode c = .ok i) (s : State)
    (hra : i.regFields.2.1.val = ra) (hrb : i.regFields.2.2.val = rb) :
    issueFault c s =
      if i.op = 2 ∨ i.op = 3 then
        fieldFault s.mem i.ty.width (wordIndex (s.readV (Fin.ofNat 16 ra))) (bitOffset (s.readV (Fin.ofNat 16 rb)))
      else none := by
  subst hra hrb
  rw [issueFault_of_ok hd, codecFault]
  simp only [Fin.ofNat_eq_cast, Fin.cast_val_eq_self]

/-- Settles O23: the decoder's three checks come first, in order (R66), then the two of LDF and STF (R90). -/
theorem lowestFaultCodeWins : Obligations.LowestFaultCodeWins := by
  intro s c rest hport hf op W idx off codec illegalOpcode reservedField illegalWidth badOffset badIndex
  obtain ⟨errOpcode, errReserved, errWidth, hok⟩ := decodeChecksInOrder c
  have faults {code : FaultCode} (h : issueFault c (s.withPort rest) = some code) :
      step s = .next (((s.withPort rest).answer (some .accepted)).takeFault code c) :=
    (step_cons hport).trans (hIssue_of_issueFault_eq_some (s := s.withPort rest) hf h)
  by_cases hopcode : illegalOpcode
  · exact ⟨_, faults (issueFault_of_error (errOpcode hopcode) _), by simp [hopcode, FaultCode.num]⟩
  have hop : 1 ≤ op ∧ op ≤ 9 := by
    simp only [illegalOpcode] at hopcode
    omega
  by_cases hreserved : reservedField
  · exact ⟨_, faults (issueFault_of_error (errReserved hop hreserved) _), by simp [hopcode, hreserved, FaultCode.num]⟩
  have hlegal : ¬illegalWidth ↔ W - 1 ≤ 63 ∨ (W - 1 = 127 ∧ op ≠ 2 ∧ op ≠ 3) := by
    simp only [illegalWidth, codec]
    omega
  by_cases hwidth : illegalWidth
  · have hillegal := hlegal.not.mp (not_not_intro hwidth)
    exact ⟨_, faults (issueFault_of_error (errWidth hop hreserved hillegal) _),
      by simp [hopcode, hreserved, hwidth, FaultCode.num]⟩
  obtain ⟨i, hd, hiop, -, hiW, -, hra, hrb⟩ := hok hop hreserved (hlegal.mp hwidth)
  have hfault := issueFault_of_fields hd (s.withPort rest) hra hrb
  rw [hiop, hiW] at hfault
  by_cases hoffset : badOffset
  · have hbadOffset := hfault.trans ((if_pos hoffset.1).trans (fieldFault_of_badOffset _ _ _ hoffset.2))
    exact ⟨_, faults hbadOffset, by simp [hopcode, hreserved, hwidth, hoffset, FaultCode.num]⟩
  by_cases hindex : badIndex
  · have hbadIndex := hfault.trans ((if_pos hindex.1).trans
      (fieldFault_of_badIndex (Nat.not_lt.mp fun h => hoffset ⟨hindex.1, h⟩) hindex.2))
    exact ⟨_, faults hbadIndex, by simp [hopcode, hreserved, hwidth, hoffset, hindex, FaultCode.num]⟩
  have hnone : issueFault c (s.withPort rest) = none := by
    rw [hfault]
    by_cases hcodec : codec
    · exact (if_pos hcodec).trans
        (fieldFault_of_inside (Nat.not_lt.mp fun h => hoffset ⟨hcodec, h⟩) fun h => hindex ⟨hcodec, h⟩)
    · exact if_neg hcodec
  obtain ⟨t, ht, htf⟩ := hIssue_of_issueFault_eq_none (s := s.withPort rest) hf hnone
  exact ⟨t, (step_cons hport).trans ht, by simp [hopcode, hreserved, hwidth, hoffset, hindex, htf]⟩

end Sys2Proof.Machine
end

/-! ## A run ends at the first fault -/

section

namespace Sys2Proof.Machine

/-- A run goes on after its first word from the state which that word's H_ISSUE gives. -/
theorem runProgram_cons {c : CmdWord} {s u : State} (cs : List CmdWord) (h : hIssue c s = .next u) :
    runProgram (c :: cs) s = runProgram cs u := by
  rw [runProgram, h]

/-- The run of two programs in a row is the second's, from the state in which the first ends. -/
theorem runProgram_append {before : List CmdWord} {s t : State} (cs : List CmdWord)
    (h : runProgram before s = .next t) : runProgram (before ++ cs) s = runProgram cs t := by
  induction before generalizing s with
  | nil => cases h; rfl
  | cons c before ih =>
    obtain ⟨u, hu⟩ := hIssue_next c s
    have htail : runProgram before u = .next t := (runProgram_cons before hu).symm.trans h
    exact (runProgram_cons (before ++ cs) hu).trans (ih htail)

/-- Settles O26: the run reaches the state right after the fault, and from there it is the run of a halted unit. -/
theorem runEndsAtFirstFault : Obligations.RunEndsAtFirstFault := by
  intro before after c s s1 s2 hbefore hc hhalted
  calc runProgram (before ++ c :: after) s
      = runProgram (c :: after) s1 := runProgram_append (c :: after) hbefore
    _ = runProgram after s2 := runProgram_cons after hc
    _ = .next { s2 with reply := if after = [] then s2.reply else some .rejected } :=
      haltedRunChangesNothing after s2 hhalted

end Sys2Proof.Machine
end
